-- ==== Sys2Proof/Word.lean ====
section
/-! DEFINITION. The word types of TRB-CORE and the one narrowing of the spec (00_scope.md R7, R10). -/

namespace Sys2Proof

/-- WORD (R7): a register, a memory cell, an opcode or an operand, 8 bits, unsigned. -/
abbrev Byte := BitVec 8

/-- PC_WIDTH (R7, R26): 9 bits, so that `pc` can hold 256. -/
abbrev PcWord := BitVec 9

/-- The number of a general register, `R[0]` to `R[7]` (R22). -/
abbrev RegIdx := Fin 8

/-- `v mod 256` (R10): what a write of the exact value `v` to an 8-bit register or cell stores. -/
def wrap8 (v : Nat) : Byte := BitVec.ofNat 8 v

@[simp] theorem wrap8_toNat (b : Byte) : wrap8 b.toNat = b := by simp [wrap8]

@[simp] theorem toNat_wrap8 (v : Nat) : (wrap8 v).toNat = v % 256 := by simp [wrap8]

end Sys2Proof
end

