-- ==== Sys2Proof/Config.lean ====
section
/-! DEFINITION. The implementation parameters of 00_scope.md R7. All are fixed to the spec's value;
`gprReset` alone is the model's choice for an OPEN parameter. `OPCODE_MAP` is in Decode.lean. -/

namespace Sys2Proof.Config

/-- MEM_SIZE (R7): 256 cells, addresses 0 to 255. -/
def memSize : Nat := 256

/-- What every cell holds after reset (R40, R191): 0x00. It is also what an address that the
memory list does not list reads as. -/
def memReset : Byte := 0x00#8

/-- SP_INDEX (R7, R23): SP is `R[7]`. -/
def spIndex : RegIdx := 7

/-- SP_RESET (R7, R40). -/
def spReset : Byte := 0xF4#8

/-- STACK_BASE (R7, R132), the bound of the stack-underflow check, at its default. The stack
operations take it as an argument, so that the value 256 (R132) can be stated too. -/
def stackBase : Nat := 0xF4

/-- PC_RESET (R7, R30). -/
def pcReset : PcWord := 0#9

/-- FL_RESET (R7, R32). -/
def flReset : Bool := false

/-- IR_RESET (R7, R33; the spec's decision D3, log 3). -/
def irReset : Byte := 0x00#8

/-- GPR_RESET (R7): OPEN in the spec. DESIGN CHOICE (log 1, unsafe): 0x00 in each of R0 to R6.
`State.resetWith g` is the reset for any other value, and no statement rests on this one. -/
def gprReset : Vector Byte 7 := Vector.replicate 7 0x00#8

end Sys2Proof.Config
end

