-- ==== Sys2Proof/Machine/State.lean ====
section
/-! DEFINITION. The state of TRB-CORE as plain data (10_state.md R21, R38; 60_exceptions.md R161,
R163; 70_reset_and_hazards.md R201, R207) and its reset (R40). -/

namespace Sys2Proof.Machine

/-- The memory `M[0..255]` (20_memory.md R50) as a list of cells in one canonical form
(`Memory.wf` in Ops.lean): addresses strictly rising and below 256, no cell equal to
`Config.memReset`, which is what an unlisted address reads as. -/
abbrev Memory := List Host.Cell

/-- The sub-kinds of `OutOfBounds` (R161). -/
inductive BoundsKind where
  /-- Opcode fetch with `pc` above 255 (stage 1, R91). -/
  | fetchOpcode
  /-- Operand read at 256, i.e. a non-HLT opcode at 254 or 255 (stage 3, R93). -/
  | fetchOperand
  /-- PUSH or CALL with SP = 0 (R131). -/
  | stackOverflow
  /-- POP or RET with SP at or above STACK_BASE (R132). -/
  | stackUnderflow
  /-- A data access outside 0 to 255. No step reaches it (R52, R167). -/
  | dataAccess
deriving DecidableEq, Repr

/-- The fault kinds of R161, the spec's own faults. A step that raises one of the first four TAKES
it: it answers a next state whose `fault` field holds the record (R164, R165). -/
inductive FaultKind where
  | outOfBounds (sub : BoundsKind)
  | illegalInstruction
  /-- The ALU called with an operation it does not have. No step reaches it (R102, R168). -/
  | invalidAluOperation
  | invalidRegister
  /-- Raised by the host's load, never by a step (R169). -/
  | loadError
deriving DecidableEq, Repr

/-- Which operand byte a fault names (R163, `bad_operand`). -/
inductive OperandPos where
  | operandA
  | operandB
deriving DecidableEq, Repr

/-- A fault record (R163). `kind` carries the sub-kind; `ir` and `operands` are none where the
record's `ir_valid` and `ops_valid` are 0. `FaultRecord.raw` (Ops.lean) is the record in the field
widths and codes of R163. -/
structure FaultRecord where
  kind : FaultKind
  pc : PcWord
  ir : Option Byte
  operands : Option (Byte × Byte)
  addr : BitVec 9
  badOperand : Option OperandPos
deriving DecidableEq, Repr

/-- A fault record as the host reads it, field by field as R163 lists them. -/
structure RawFaultRecord where
  kind : BitVec 3
  sub : BitVec 3
  pc : BitVec 9
  irValid : BitVec 1
  ir : BitVec 8
  opsValid : BitVec 1
  operandA : BitVec 8
  operandB : BitVec 8
  addr : BitVec 9
  badOperand : BitVec 2
deriving DecidableEq, Repr

/-- Where the core stands in the host's load window (R201, R207). DEDUCED (log 9). -/
inductive LoadPhase where
  /-- After reset and before the first step: `load` is permitted. -/
  | beforeFirstStep
  /-- A step has been taken: `load` is refused. -/
  | stepped
  /-- A `load` raised `LoadError`: no step may run and `load` is refused until the next reset. -/
  | loadFailed
deriving DecidableEq, Repr

/-- The state of the core: the tuple of R21, the operand latches of R38 and the load window of
R201. -/
structure State where
  /-- `R[0..7]`; `R[7]` is SP (R22, R23). -/
  regs : Vector Byte 8
  /-- Program counter (R26). -/
  pc : PcWord
  /-- Instruction register: the last fetched opcode byte (R33). -/
  ir : Byte
  /-- Equal flag (R32). -/
  fl : Bool
  /-- Memory (R50). -/
  mem : Memory
  /-- HLT has executed (R34). -/
  halted : Bool
  /-- A fault has ended the run (R35). -/
  fault : Option FaultRecord
  /-- Bytes emitted by PRN, oldest first (R39, R116). -/
  out : List Byte
  /-- `operand_a` and `operand_b` of the step in progress; none between steps (R38). -/
  latch : Option (Byte × Byte)
  /-- The host's load window (R201). -/
  loadPhase : LoadPhase
deriving DecidableEq, Repr

/-- Reasons for a step to stop without a next state. There is NONE: every fault of this core is
taken as a next state (R164, R165; log 7), so the type has no constructor, which is safe: nothing
that the spec lets run is stopped. -/
inductive Fault where
deriving DecidableEq, Repr

/-- Reasons to refuse an instruction. -/
inductive Refusal where
  /-- Raised by an arm of `exec` for an instruction that has no meaning yet. No arm raises it in
  this model. Safe: nothing is claimed of a refused instruction. -/
  | notModelled (mnemonic : String)
deriving DecidableEq, Repr

/-- The state after reset for a value `g` of the OPEN parameter GPR_RESET (R7, R40, R190). -/
def State.resetWith (g : Vector Byte 7) : State where
  regs := g.push Config.spReset
  pc := Config.pcReset
  ir := Config.irReset
  fl := Config.flReset
  mem := []
  halted := false
  fault := none
  out := []
  latch := none
  loadPhase := .beforeFirstStep

/-- The state right after reset (R40), with `Config.gprReset` in R0 to R6 (log 1). -/
def State.reset : State := State.resetWith Config.gprReset

end Sys2Proof.Machine
end

