-- ==== Sys2Proof/Machine/Ops.lean ====
section
/-! DEFINITION. The named operations over memory, registers, pc and output (00_scope.md R10 to R15),
raising a fault (60_exceptions.md R164), and the guarded push and pop that the stack instructions
share (43_stack.md R130 to R132). -/

namespace Sys2Proof.Machine

/-- What a meaning answers. -/
abbrev Result := Host.Outcome State Fault Refusal

/-- Applies `f` to the next state of a result; a stop stays as it is. -/
def Result.mapNext (f : State → State) : Result → Result
  | .next s => .next (f s)
  | .fault r => .fault r
  | .refused r => .refused r

/-! ### Memory -/

/-- The cell at `a` (R50): what an address the list does not hold reads as is `Config.memReset`. -/
def Memory.read (m : Memory) (a : Nat) : Byte :=
  match m with
  | [] => Config.memReset
  | (k, v) :: rest => if k = a then v else Memory.read rest a

/-- Sets the cell at `a`, keeping the list in its canonical form. -/
def Memory.put (m : Memory) (a : Nat) (v : Byte) : Memory :=
  match m with
  | [] => if v = Config.memReset then [] else [(a, v)]
  | (k, w) :: rest =>
    if a < k then
      if v = Config.memReset then (k, w) :: rest else (a, v) :: (k, w) :: rest
    else if a = k then
      if v = Config.memReset then rest else (a, v) :: rest
    else
      (k, w) :: Memory.put rest a v

/-- Sets the cell at `a` if `a` is an address (R50); an address above 255 has no cell. -/
def Memory.write (m : Memory) (a : Nat) (v : Byte) : Memory :=
  if a < Config.memSize then Memory.put m a v else m

/-- Writes bytes at ascending addresses from `a`. -/
def Memory.writeBytes (m : Memory) (a : Nat) : List Byte → Memory
  | [] => m
  | v :: vs => Memory.writeBytes (Memory.write m a v) (a + 1) vs

/-- The canonical form: addresses strictly rising and below 256, no cell equal to what an unlisted
address reads as. Equal memories are then equal lists. -/
def Memory.wf : Memory → Bool
  | [] => true
  | (k, v) :: rest =>
    decide (k < Config.memSize) && decide (v ≠ Config.memReset)
      && rest.all (fun c => decide (k < c.1)) && Memory.wf rest

/-- `MemRead(addr, 1)` (R12): the cell when 0 ≤ addr ≤ 255; none where the spec raises
`OutOfBounds`, and then nothing is read. -/
def State.memRead (s : State) (addr : Nat) : Option Byte :=
  if addr < Config.memSize then some (Memory.read s.mem addr) else none

/-- `MemWrite(addr, 1, v)` (R13): the cell becomes `v mod 256` when 0 ≤ addr ≤ 255; none where the
spec raises `OutOfBounds`, and then nothing is written. -/
def State.memWrite (s : State) (addr v : Nat) : Option State :=
  if addr < Config.memSize then some { s with mem := Memory.write s.mem addr (wrap8 v) } else none

/-! ### Registers, pc, output -/

/-- `R[r]` (R11). -/
def State.reg (s : State) (r : RegIdx) : Byte := s.regs[r]

/-- `R[r] <- v`, which stores `v mod 256` (R10, R22). -/
def State.setReg (s : State) (r : RegIdx) (v : Nat) : State :=
  { s with regs := s.regs.set r (wrap8 v) }

/-- SP is `R[7]` (R23). -/
def State.sp (s : State) : Byte := s.reg Config.spIndex

/-- `R[7] <- R[7] - 1`. -/
def State.decSp (s : State) : State := s.setReg Config.spIndex (s.sp.toNat - 1)

/-- `R[7] <- (R[7] + 1) mod 256`. -/
def State.incSp (s : State) : State := s.setReg Config.spIndex (s.sp.toNat + 1)

/-- `pc <- target`. -/
def State.setPc (s : State) (target : Nat) : State := { s with pc := BitVec.ofNat 9 target }

/-- `pc <- pc + n`, computed exactly and stored in the 9-bit `pc` (R28). -/
def State.advance (s : State) (n : Nat) : State := s.setPc (s.pc.toNat + n)

/-- `Out(v)` (R15): one more entry at the end of `out`. -/
def State.emit (s : State) (v : Byte) : State := { s with out := s.out ++ [v] }

/-! ### Raising a fault: the one way control leaves an instruction (R160, R164)

The spec's exception model is this: the fault record is written, everything else keeps its value,
and the core stops. There is no vector, no saved status and no mode (R174, R177). There is no return
from it (R175): the one way out is reset (`hostReset` in HostInterface.lean). -/

/-- `raise K(info)` (R164): fills the fault record from the kind, the address, the operand named and
the step's `pc`, `ir`, `a` and `b`, and sets `fault`. `ir` is recorded unless stage 1 itself failed
(R163); the operands are recorded if stage 3 succeeded, i.e. if the step holds them. -/
def raise (kind : FaultKind) (addr : Nat) (bad : Option OperandPos) (s : State) : State :=
  { s with
    fault := some
      { kind := kind
        pc := s.pc
        ir := if kind = .outOfBounds .fetchOpcode then none else some s.ir
        operands := s.latch
        addr := BitVec.ofNat 9 addr
        badOperand := bad } }

/-- The code of a fault kind (R161). -/
def FaultKind.code : FaultKind → BitVec 3
  | .outOfBounds _ => 1#3
  | .illegalInstruction => 2#3
  | .invalidAluOperation => 3#3
  | .invalidRegister => 4#3
  | .loadError => 5#3

/-- The sub-kind code of `OutOfBounds`, else 0 (R161, R163). -/
def FaultKind.subCode : FaultKind → BitVec 3
  | .outOfBounds .fetchOpcode => 1#3
  | .outOfBounds .fetchOperand => 2#3
  | .outOfBounds .stackOverflow => 3#3
  | .outOfBounds .stackUnderflow => 4#3
  | .outOfBounds .dataAccess => 5#3
  | _ => 0#3

/-- The code of `bad_operand` (R163). -/
def badOperandCode : Option OperandPos → BitVec 2
  | none => 0#2
  | some .operandA => 1#2
  | some .operandB => 2#2

/-- The record as the host reads it: a field that is not valid reads as 0 (R163). -/
def FaultRecord.raw (r : FaultRecord) : RawFaultRecord where
  kind := r.kind.code
  sub := r.kind.subCode
  pc := r.pc
  irValid := BitVec.ofBool r.ir.isSome
  ir := r.ir.getD 0#8
  opsValid := BitVec.ofBool r.operands.isSome
  operandA := (r.operands.map Prod.fst).getD 0#8
  operandB := (r.operands.map Prod.snd).getD 0#8
  addr := r.addr
  badOperand := badOperandCode r.badOperand

/-! ### The guarded push and pop (R130 to R132) -/

/-- Push and go on: the stack-overflow check against the state at the start of the instruction
(R96, R131), then SP - 1, then the write of `v` at the new SP, then `k`. The value is computed in
the state after the decrement (R16, R133, R141). -/
def pushThen (v : State → Nat) (k : State → State) (s : State) : Result :=
  if s.sp = 0#8 then
    .next (raise (.outOfBounds .stackOverflow) s.sp.toNat none s)
  else
    match s.decSp.memWrite s.decSp.sp.toNat (v s.decSp) with
    | some t => .next (k t)
    | none => .next (raise (.outOfBounds .dataAccess) s.decSp.sp.toNat none s)

/-- Pop and go on: the stack-underflow check against `base` (STACK_BASE, R132), then the read at SP,
then `k` with the byte read. -/
def popThen (base : Nat) (k : Byte → State → State) (s : State) : Result :=
  if base ≤ s.sp.toNat then
    .next (raise (.outOfBounds .stackUnderflow) s.sp.toNat none s)
  else
    match s.memRead s.sp.toNat with
    | some v => .next (k v s)
    | none => .next (raise (.outOfBounds .dataAccess) s.sp.toNat none s)

/-! ### Around an instruction -/

/-- A step may begin (R90, R201): not halted, no fault, and no failed load since reset. -/
def State.ready (s : State) : Bool :=
  !s.halted && s.fault.isNone && decide (s.loadPhase ≠ .loadFailed)

/-- The start of a step: the operand latches are empty, and the load window is over (R38, R201). -/
def State.beginStep (s : State) : State := { s with latch := none, loadPhase := .stepped }

/-- The end of a step: the operand latches hold no value to the next step (R38). -/
def State.endStep (s : State) : State := { s with latch := none }

end Sys2Proof.Machine
end

