-- ==== Sys2Proof/Machine/Flags.lean ====
section
/-! DEFINITION. The one flag (10_state.md R32): what CMP computes and what JEQ and JNE test. -/

namespace Sys2Proof.Machine

/-- CMP's flag: 1 when the full 8-bit values are equal, else 0 (R124). -/
def equalFlag (x y : Byte) : Bool := decide (x = y)

/-- JEQ is taken when `fl = 1` (R148). -/
def jeqTaken (fl : Bool) : Bool := fl

/-- JNE is taken when `fl = 0` (R150). -/
def jneTaken (fl : Bool) : Bool := !fl

end Sys2Proof.Machine
end

