-- ==== Sys2Proof/Machine/Operands.lean ====
section
/-! DEFINITION. The operand forms (30_encoding.md R78, R79; 10_state.md R24). The only operands are
register bytes and LDI's immediate byte, which is used as it stands. -/

namespace Sys2Proof.Machine

/-- The register a register operand selects (R78): the whole byte is the index, no bit is masked,
and 8 to 255 select none. -/
def regIndex? (b : Byte) : Option RegIdx :=
  if h : b.toNat < 8 then some ⟨b.toNat, h⟩ else none

/-- Uses the register operand `b` (R24, R170): goes on with the register it selects, or raises
`InvalidRegister`, naming the operand, with no other effect. -/
def withReg (pos : OperandPos) (b : Byte) (s : State) (k : RegIdx → Result) : Result :=
  match regIndex? b with
  | some r => k r
  | none => .next (raise .invalidRegister 0 (some pos) s)

/-- Uses two register operands, operand_a checked before operand_b (R96, R172). -/
def withRegs (a b : Byte) (s : State) (k : RegIdx → RegIdx → Result) : Result :=
  withReg .operandA a s fun ra => withReg .operandB b s fun rb => k ra rb

/-- Sets `pc` to the value of the register operand `a`: what JMP does, and JEQ and JNE when taken
(R144, R148, R150). -/
def jumpToReg (a : Byte) (s : State) : Result :=
  withReg .operandA a s fun r => .next (s.setPc (s.reg r).toNat)

end Sys2Proof.Machine
end

