-- ==== Sys2Proof/Machine/Alu.lean ====
section
/-! DEFINITION. The ALU and the instructions that use it: ADD, MUL, CMP (42_alu.md). -/

namespace Sys2Proof.Machine

/-- An operation code the ALU can be called with: its three operations, and any other (R121). -/
inductive AluOp where
  | add
  | mul
  | cmp
  | other (code : Byte)
deriving DecidableEq, Repr

/-- The ALU (R120): a pure function of an operation, two register indices, the register file and
`fl`. Sums and products are exact and reduced modulo 256 (R122, R123, R125); any operation other
than the three raises `InvalidALUOperation` (R121). -/
def alu (op : AluOp) (a b : RegIdx) (regs : Vector Byte 8) (fl : Bool) :
    Except FaultKind (Vector Byte 8 × Bool) :=
  match op with
  | .add => .ok (regs.set a (wrap8 (regs[a].toNat + regs[b].toNat)), fl)
  | .mul => .ok (regs.set a (wrap8 (regs[a].toNat * regs[b].toNat)), fl)
  | .cmp => .ok (regs, equalFlag regs[a] regs[b])
  | .other _ => .error .invalidAluOperation

/-- Runs the ALU on two register operands and falls through by 3 (R122 to R124). -/
def aluStep (op : AluOp) (a b : Byte) (s : State) : Result :=
  withRegs a b s fun ra rb =>
    match alu op ra rb s.regs s.fl with
    | .ok (regs, fl) => .next (State.advance { s with regs := regs, fl := fl } 3)
    | .error k => .next (raise k 0 none s)

/-- ADD (R122). -/
def execAdd (a b : Byte) (s : State) : Result := aluStep .add a b s

/-- MUL (R123). -/
def execMul (a b : Byte) (s : State) : Result := aluStep .mul a b s

/-- CMP (R124). -/
def execCmp (a b : Byte) (s : State) : Result := aluStep .cmp a b s

end Sys2Proof.Machine
end

