-- ==== Sys2Proof/Machine/Control.lean ====
section
/-! DEFINITION. CALL, RET, JMP, JEQ, JNE and HLT (44_control_transfer.md). -/

namespace Sys2Proof.Machine

/-- CALL (R140): pushes `pc + 2`, then jumps to `R[a]`, read after SP's decrement (R141). -/
def execCall (a : Byte) (s : State) : Result :=
  withReg .operandA a s fun r =>
    pushThen (fun t => t.pc.toNat + 2) (fun t => t.setPc (t.reg r).toNat) s

/-- RET with STACK_BASE = `base` (R132, R142): `pc <- M[SP]`, then `R[7] <- R[7] + 1`. -/
def execRetWith (base : Nat) (s : State) : Result :=
  popThen base (fun v t => (t.setPc v.toNat).incSp) s

/-- RET (R142), at the core's STACK_BASE. -/
def execRet (s : State) : Result := execRetWith Config.stackBase s

/-- JMP (R144). -/
def execJmp (a : Byte) (s : State) : Result := jumpToReg a s

/-- JEQ (R148): as JMP when taken, else `pc + 2`; the operand is not used when not taken. -/
def execJeq (a : Byte) (s : State) : Result :=
  if jeqTaken s.fl then jumpToReg a s else .next (s.advance 2)

/-- JNE (R150): as JMP when taken, else `pc + 2`; the operand is not used when not taken. -/
def execJne (a : Byte) (s : State) : Result :=
  if jneTaken s.fl then jumpToReg a s else .next (s.advance 2)

/-- HLT (R153): `halted <- 1`; `pc` is unchanged. -/
def execHlt (s : State) : Result := .next { s with halted := true }

end Sys2Proof.Machine
end

