-- ==== Sys2Proof/Machine/LoadOutput.lean ====
section
/-! DEFINITION. LDI and PRN (41_load_and_output.md). -/

namespace Sys2Proof.Machine

/-- LDI (R110): `R[a] <- imm`, `pc <- pc + 3`. -/
def execLdi (a imm : Byte) (s : State) : Result :=
  withReg .operandA a s fun r => .next ((s.setReg r imm.toNat).advance 3)

/-- PRN (R113): `Out(R[a])`, `pc <- pc + 2`. -/
def execPrn (a : Byte) (s : State) : Result :=
  withReg .operandA a s fun r => .next ((s.emit (s.reg r)).advance 2)

end Sys2Proof.Machine
end

