-- ==== Sys2Proof/Machine/Stack.lean ====
section
/-! DEFINITION. PUSH and POP (43_stack.md). -/

namespace Sys2Proof.Machine

/-- PUSH (R133): the register is read after SP's decrement, so PUSH R7 stores the new SP. -/
def execPush (a : Byte) (s : State) : Result :=
  withReg .operandA a s fun r =>
    pushThen (fun t => (t.reg r).toNat) (fun t => t.advance 2) s

/-- POP with STACK_BASE = `base` (R132, R134): first `R[a] <- M[SP]`, then `R[7] <- R[7] + 1`, so
POP R7 leaves the popped byte plus one. -/
def execPopWith (base : Nat) (a : Byte) (s : State) : Result :=
  withReg .operandA a s fun r =>
    popThen base (fun v t => (t.setReg r v.toNat).incSp.advance 2) s

/-- POP (R134), at the core's STACK_BASE. -/
def execPop (a : Byte) (s : State) : Result := execPopWith Config.stackBase a s

end Sys2Proof.Machine
end

