-- ==== Sys2Proof/Syntax.lean ====
section
/-! DEFINITION. The instructions of TRB-ISA, one constructor per row of spec/opcode_table.json
(00_scope.md R3, 30_encoding.md R71). -/

namespace Sys2Proof

/-- An instruction with its own operand bytes. A register operand is a whole byte (R78): the values
8 to 255 can be encoded and decoded, and raise `InvalidRegister` only when the instruction uses the
operand (R24, R77). The bytes a format ignores are no part of the instruction. -/
inductive Instr where
  /-- LDI Ra, imm (R110). -/
  | ldi (a imm : Byte)
  /-- PRN Ra (R113). -/
  | prn (a : Byte)
  /-- ADD Ra, Rb (R122). -/
  | add (a b : Byte)
  /-- MUL Ra, Rb (R123). -/
  | mul (a b : Byte)
  /-- CMP Ra, Rb (R124). -/
  | cmp (a b : Byte)
  /-- PUSH Ra (R133). -/
  | push (a : Byte)
  /-- POP Ra (R134). -/
  | pop (a : Byte)
  /-- CALL Ra (R140). -/
  | call (a : Byte)
  /-- RET (R142). -/
  | ret
  /-- JMP Ra (R144). -/
  | jmp (a : Byte)
  /-- JEQ Ra (R148). -/
  | jeq (a : Byte)
  /-- JNE Ra (R150). -/
  | jne (a : Byte)
  /-- HLT (R153). -/
  | hlt
deriving DecidableEq, Repr

end Sys2Proof
end

