-- ==== Sys2Proof/WellFormed.lean ====
section
/-! DEFINITION. Well-formed instructions: every register operand is legal (10_state.md R24). -/

namespace Sys2Proof

/-- A register operand is legal when its value is 0 to 7 (R24). -/
def Byte.legalReg (b : Byte) : Bool := decide (b.toNat < 8)

/-- Every register operand of the instruction is legal (R24, R71). LDI's immediate may be any
byte (R79). An instruction that is not well formed still decodes and runs: it raises
`InvalidRegister` where it uses the operand (R170). -/
def Instr.wellFormed : Instr → Bool
  | .ldi a _ => Byte.legalReg a
  | .prn a => Byte.legalReg a
  | .add a b => Byte.legalReg a && Byte.legalReg b
  | .mul a b => Byte.legalReg a && Byte.legalReg b
  | .cmp a b => Byte.legalReg a && Byte.legalReg b
  | .push a => Byte.legalReg a
  | .pop a => Byte.legalReg a
  | .call a => Byte.legalReg a
  | .ret => true
  | .jmp a => Byte.legalReg a
  | .jeq a => Byte.legalReg a
  | .jne a => Byte.legalReg a
  | .hlt => true

end Sys2Proof
end

