-- ==== Sys2Proof/Decode.lean ====
section
/-! DEFINITION. Decoder and encoder (30_encoding.md). An opcode is one whole byte, decoded by exact
match (R74); the opcode alone sets the length (R75, R80). -/

namespace Sys2Proof

/-- The thirteen opcodes, as names (R3, R72). -/
inductive Op where
  | ldi | prn | add | mul | cmp | push | pop | call | ret | jmp | jeq | jne | hlt
deriving DecidableEq, Repr

/-- The formats of R71. `z` covers both RET and HLT: neither has an operand of its own. -/
inductive Format where
  /-- Opcode alone, 1 byte. -/
  | z
  /-- Opcode and one register byte, 2 bytes. -/
  | r
  /-- Opcode and two register bytes, 3 bytes. -/
  | rr
  /-- Opcode, register byte and immediate, 3 bytes. -/
  | ri
deriving DecidableEq, Repr

/-- Why the decoder rejects a byte sequence. -/
inductive DecodeError where
  /-- There is no opcode byte. -/
  | noBytes
  /-- The opcode byte is none of the thirteen (R76). -/
  | illegalOpcode (opcode : Byte)
  /-- The bytes end before the operands of this opcode. -/
  | truncated (opcode : Byte)
deriving DecidableEq, Repr

/-- All opcodes, in the table's order. -/
def Op.all : List Op :=
  [.ldi, .prn, .add, .mul, .cmp, .push, .pop, .call, .ret, .jmp, .jeq, .jne, .hlt]

/-- OPCODE_MAP (R72): the spec's decision D1, from general knowledge of LS-8. PRESUMED (log 2). -/
def opcodeByte : Op → Byte
  | .ldi => 0x82#8
  | .prn => 0x47#8
  | .add => 0xA0#8
  | .mul => 0xA2#8
  | .cmp => 0xA7#8
  | .push => 0x45#8
  | .pop => 0x46#8
  | .call => 0x50#8
  | .ret => 0x11#8
  | .jmp => 0x54#8
  | .jeq => 0x55#8
  | .jne => 0x56#8
  | .hlt => 0x01#8

/-- The format of each opcode (R71). -/
def Op.format : Op → Format
  | .ldi => .ri
  | .prn => .r
  | .add => .rr
  | .mul => .rr
  | .cmp => .rr
  | .push => .r
  | .pop => .r
  | .call => .r
  | .ret => .z
  | .jmp => .r
  | .jeq => .r
  | .jne => .r
  | .hlt => .z

/-- The length of an instruction in bytes (R71). -/
def Format.length : Format → Nat
  | .z => 1
  | .r => 2
  | .rr => 3
  | .ri => 3

/-- The instruction an opcode makes of the operand bytes; a format that has no such byte ignores it
(R71). -/
def Op.instr (o : Op) (a b : Byte) : Instr :=
  match o with
  | .ldi => .ldi a b
  | .prn => .prn a
  | .add => .add a b
  | .mul => .mul a b
  | .cmp => .cmp a b
  | .push => .push a
  | .pop => .pop a
  | .call => .call a
  | .ret => .ret
  | .jmp => .jmp a
  | .jeq => .jeq a
  | .jne => .jne a
  | .hlt => .hlt

/-- The opcode of an instruction. -/
def Instr.op : Instr → Op
  | .ldi _ _ => .ldi
  | .prn _ => .prn
  | .add _ _ => .add
  | .mul _ _ => .mul
  | .cmp _ _ => .cmp
  | .push _ => .push
  | .pop _ => .pop
  | .call _ => .call
  | .ret => .ret
  | .jmp _ => .jmp
  | .jeq _ => .jeq
  | .jne _ => .jne
  | .hlt => .hlt

/-- The operand bytes of an instruction, in the order they stand in memory (R70). -/
def Instr.operandBytes : Instr → List Byte
  | .ldi a imm => [a, imm]
  | .prn a => [a]
  | .add a b => [a, b]
  | .mul a b => [a, b]
  | .cmp a b => [a, b]
  | .push a => [a]
  | .pop a => [a]
  | .call a => [a]
  | .ret => []
  | .jmp a => [a]
  | .jeq a => [a]
  | .jne a => [a]
  | .hlt => []

/-- The opcode a byte selects under an opcode map `m`: the one whose value equals all 8 bits (R74). -/
def opcodeOfWith (m : Op → Byte) (b : Byte) : Option Op :=
  Op.all.find? fun o => decide (m o = b)

/-- Reads one instruction off the front of a byte sequence under an opcode map `m` (R70, R71, R74)
and answers it with the bytes after it. -/
def decodeWith (m : Op → Byte) : List Byte → Except DecodeError (Instr × List Byte)
  | [] => .error .noBytes
  | opcode :: rest =>
    match opcodeOfWith m opcode with
    | none => .error (.illegalOpcode opcode)
    | some o =>
      match o.format, rest with
      | .z, bytes => .ok (o.instr 0#8 0#8, bytes)
      | .r, a :: bytes => .ok (o.instr a 0#8, bytes)
      | .rr, a :: b :: bytes => .ok (o.instr a b, bytes)
      | .ri, a :: b :: bytes => .ok (o.instr a b, bytes)
      | _, _ => .error (.truncated opcode)

/-- The bytes of an instruction under an opcode map `m`: opcode, then `a`, then `b` or `imm`
(R70, R85). -/
def encodeWith (m : Op → Byte) (i : Instr) : List Byte := m i.op :: i.operandBytes

/-- The opcode a byte selects under R72. -/
def opcodeOf (b : Byte) : Option Op := opcodeOfWith opcodeByte b

/-- The decoder of the core: OPCODE_MAP is R72's. -/
def decode (bytes : List Byte) : Except DecodeError (Instr × List Byte) := decodeWith opcodeByte bytes

/-- The encoder that goes with `decode`. -/
def encode (i : Instr) : List Byte := encodeWith opcodeByte i

/-- The three bytes a table word stands for, the first at the lowest address (R54, R70): bit 0 of
`w` is the least significant bit of the first byte, and every bit from `nbits` on is 0. -/
def tableBytes (nbits w : Nat) : List Byte :=
  [wrap8 (w % 2 ^ nbits), wrap8 (w % 2 ^ nbits / 256), wrap8 (w % 2 ^ nbits / 65536)]

/-- The instruction the decoder reads from a word numbered as spec/opcode_table.json numbers it. -/
def decodeTableWord (nbits w : Nat) : Option Instr :=
  match decode (tableBytes nbits w) with
  | .ok (i, _) => some i
  | .error _ => none

end Sys2Proof
end

