-- ==== Sys2Proof/Machine/Fetch.lean ====
section
/-! DEFINITION. Stages 1 to 4 of a step: fetch, halt check, operand read, decode
(40_fetch_decode_execute.md R91 to R94). Each stage answers the state it leaves, or, as `.error`,
the state after the fault it raised. -/

namespace Sys2Proof.Machine

/-- Stage 1 (R91): the opcode byte at `pc` goes to `ir`. -/
def fetchOpcode (s : State) : Except State State :=
  match s.memRead s.pc.toNat with
  | some opcode => .ok { s with ir := opcode }
  | none => .error (raise (.outOfBounds .fetchOpcode) s.pc.toNat none s)

/-- Stage 3 (R93): operand_a at `pc + 1`, then operand_b at `pc + 2`, whatever the opcode's length. -/
def readOperands (s : State) : Except State State :=
  match s.memRead (s.pc.toNat + 1) with
  | none => .error (raise (.outOfBounds .fetchOperand) (s.pc.toNat + 1) none s)
  | some a =>
    match s.memRead (s.pc.toNat + 2) with
    | none => .error (raise (.outOfBounds .fetchOperand) (s.pc.toNat + 2) none s)
    | some b => .ok { s with latch := some (a, b) }

/-- Stage 4 (R94): the decoder is given `ir` and the two operand bytes. -/
def decodeStage (s : State) : Except State (Instr × State) :=
  match decode (s.ir :: (s.latch.map fun ab => [ab.1, ab.2]).getD []) with
  | .ok (i, _) => .ok (i, s)
  | .error _ => .error (raise .illegalInstruction 0 none s)

/-- Stages 1 to 4 in order (R97): HLT is found before any operand is read (R92). -/
def fetchInstr (s : State) : Except State (Instr × State) :=
  match fetchOpcode s with
  | .error t => .error t
  | .ok t =>
    if t.ir = opcodeByte .hlt then .ok (.hlt, t)
    else
      match readOperands t with
      | .error u => .error u
      | .ok u => decodeStage u

end Sys2Proof.Machine
end

