-- ==== Sys2Proof/Machine/Step.lean ====
section
/-! DEFINITION. One step of the core (40_fetch_decode_execute.md R90 to R98). -/

namespace Sys2Proof.Machine

/-- One step (R97). A core that may not begin a step keeps its state (R98, R202). A fault, in any
stage, is taken as a next state (R164, R165). -/
def step (s : State) : Host.Outcome State Fault Refusal :=
  if s.ready then
    match fetchInstr s.beginStep with
    | .error t => .next t.endStep
    | .ok (i, t) => Result.mapNext State.endStep (exec i t)
  else .next s

/-- `s` with a table word's three bytes stored where `step` fetches its next instruction, at `pc`
(log 11). It stands for the host's load of a program (R201). -/
def State.withFetchWord (s : State) (nbits w : Nat) : State :=
  { s with mem := Memory.writeBytes s.mem s.pc.toNat (tableBytes nbits w) }

end Sys2Proof.Machine
end

