-- ==== Sys2Proof/Machine/HostInterface.lean ====
section
/-! DEFINITION. What the host can do to the core: reset, load, step, run, and reading the state
(70_reset_and_hazards.md R190 to R207; 40_fetch_decode_execute.md R99, R100). -/

namespace Sys2Proof.Machine

/-- What a `load` reports (R201). -/
inductive LoadReport where
  /-- The bytes were written. -/
  | accepted
  /-- `LoadError` (R161 code 5, R169): more than 256 bytes; nothing was written. -/
  | loadError
  /-- Not in the load window: no state changed. -/
  | refused
deriving DecidableEq, Repr

/-- The architectural state as the host reads it: the tuple of R21 (R204). -/
structure CoreView where
  regs : Vector Byte 8
  pc : PcWord
  ir : Byte
  fl : Bool
  mem : Memory
  halted : Bool
  fault : Option RawFaultRecord
  out : List Byte
deriving DecidableEq, Repr

/-- A request of the host that takes bounded time (R200). `run` may never return (R203), so it is
stated through `runFor` and not a request. -/
inductive HostRequest where
  | reset (g : Vector Byte 7)
  | load (bytes : List Byte)
  | step
  | read
deriving DecidableEq, Repr

/-- What the host gets back. -/
inductive HostReply where
  | done
  | loadReport (report : LoadReport)
  | view (v : CoreView)
deriving DecidableEq, Repr

/-- The host's reset (R190, R191): every piece of state at its reset value, whatever it was. `g` is
the value of GPR_RESET. -/
def hostReset (g : Vector Byte 7) (_before : State) : State := State.resetWith g

/-- The host's load (R201): permitted only after reset and before the first step. -/
def hostLoad (bytes : List Byte) (s : State) : LoadReport × State :=
  match s.loadPhase with
  | .beforeFirstStep =>
    if bytes.length ≤ Config.memSize then
      (.accepted, { s with mem := Memory.writeBytes s.mem 0 bytes })
    else (.loadError, { s with loadPhase := .loadFailed })
  | .stepped => (.refused, s)
  | .loadFailed => (.refused, s)

/-- The state after one step. Every step answers a next state, so the other cases keep the state. -/
def stepState (s : State) : State :=
  match step s with
  | .next t => t
  | .fault _ => s
  | .refused _ => s

/-- The host's state read (R204). -/
def coreView (s : State) : CoreView where
  regs := s.regs
  pc := s.pc
  ir := s.ir
  fl := s.fl
  mem := s.mem
  halted := s.halted
  fault := s.fault.map FaultRecord.raw
  out := s.out

/-- One request of the host, with its reply (R200). -/
def hostRequest (q : HostRequest) (s : State) : HostReply × State :=
  match q with
  | .reset g => (.done, hostReset g s)
  | .load bytes => (.loadReport (hostLoad bytes s).1, (hostLoad bytes s).2)
  | .step => (.done, stepState s)
  | .read => (.view (coreView s), s)

/-- `n` steps (R99). A core that has ended keeps its state (R98). -/
def runFor : Nat → State → State
  | 0, s => s
  | n + 1, s => runFor n (stepState s)

/-- `LaunchState(g, bytes)` (R207): the reset for GPR_RESET = `g`, then a load of `bytes`. -/
def launchState (g : Vector Byte 7) (bytes : List Byte) : State :=
  (hostLoad bytes (State.resetWith g)).2

end Sys2Proof.Machine
end

