-- ==== Sys2Proof/Machine/ProgramText.lean ====
section
/-! DEFINITION. The host's text duties, outside the core: the program text its loader reads
(70_reset_and_hazards.md R205) and the decimal text of the output (41_load_and_output.md R117). -/

namespace Sys2Proof.Machine

/-- White space inside a line. DESIGN CHOICE (log 14): space, tab and carriage return. -/
def isBlankChar (c : Char) : Bool := decide (c = ' ') || decide (c = '\t') || decide (c = '\r')

/-- The value of eight binary digits, most significant first (R8, R205); none for anything else. -/
def binaryByte (token : List Char) : Option Byte :=
  if token.length = 8 ∧ token.all (fun c => decide (c = '0') || decide (c = '1')) then
    some (wrap8 (token.foldl (fun n c => 2 * n + if c = '1' then 1 else 0) 0))
  else none

/-- The text of a byte as eight binary digits, most significant first: what a program text holds for
it (R85, R205). -/
def binaryLine (b : Byte) : List Char :=
  (List.range 8).map fun k => if b.getLsbD (7 - k) then '1' else '0'

/-- Only white space, or white space and then a comment (R205). That white space may stand before the
`#` is a DESIGN CHOICE (log 14). -/
def blankOrComment (text : List Char) : Bool :=
  match text.dropWhile isBlankChar with
  | [] => true
  | c :: _ => decide (c = '#')

/-- The leading token of a line (R205): what stands before the next white space. DESIGN CHOICE
(log 14): white space before the token is dropped, and a `#` with no white space before it is part of
the token. -/
def leadingToken (line : List Char) : List Char :=
  (line.dropWhile isBlankChar).takeWhile fun c => !isBlankChar c

/-- What follows the leading token of a line. -/
def afterToken (line : List Char) : List Char :=
  (line.dropWhile isBlankChar).dropWhile fun c => !isBlankChar c

/-- One line of program text (R205): no byte for a blank or comment line, one byte for a token line;
`LoadError` for any other line. White space may stand before the token or the comment, and only white
space and a comment may follow the token: a second word is a `LoadError`. DESIGN CHOICE (log 14):
the rule says neither. -/
def parseLine (line : List Char) : Except FaultKind (Option Byte) :=
  if blankOrComment line then .ok none
  else
    match binaryByte (leadingToken line) with
    | some b => if blankOrComment (afterToken line) then .ok (some b) else .error .loadError
    | none => .error .loadError

/-- The bytes of a program text given line by line, in file order (R205). -/
def parseLines : List (List Char) → Except FaultKind (List Byte)
  | [] => .ok []
  | line :: lines =>
    match parseLine line, parseLines lines with
    | .ok none, .ok bytes => .ok bytes
    | .ok (some b), .ok bytes => .ok (b :: bytes)
    | .error k, _ => .error k
    | .ok _, .error k => .error k

/-- Splits a text at its line ends. DESIGN CHOICE (log 14): a line feed ends a line. -/
def splitLines : List Char → List (List Char)
  | [] => [[]]
  | c :: cs =>
    if c = '\n' then [] :: splitLines cs
    else
      match splitLines cs with
      | [] => [[c]]
      | line :: lines => (c :: line) :: lines

/-- The host's loader (R205, R201): a malformed text is a `LoadError` and then no step may run, as
for a load that is too long (R169). Outside the load window a malformed text is refused like any other
load: DESIGN CHOICE (log 14). -/
def hostLoadText (text : List Char) (s : State) : LoadReport × State :=
  match parseLines (splitLines text) with
  | .ok bytes => hostLoad bytes s
  | .error _ =>
    match s.loadPhase with
    | .beforeFirstStep => (.loadError, { s with loadPhase := .loadFailed })
    | .stepped => (.refused, s)
    | .loadFailed => (.refused, s)

/-- The text of one output byte (R117): the shortest decimal form. -/
def renderValue (v : Byte) : List Char :=
  let digit (n : Nat) : Char := Char.ofNat (48 + n)
  if v.toNat < 10 then [digit v.toNat]
  else if v.toNat < 100 then [digit (v.toNat / 10), digit (v.toNat % 10)]
  else [digit (v.toNat / 100), digit (v.toNat / 10 % 10), digit (v.toNat % 10)]

/-- The text of the output (R117): one line for each entry, in order. -/
def renderOut (out : List Byte) : List (List Char) := out.map renderValue

end Sys2Proof.Machine
end

