-- ==== Sys2Proof/Safety.lean ====
section
/-! DEFINITION. The terms in which claims speak of a run: when it has ended and how
(70_reset_and_hazards.md R206), the tables of 10_state.md R27 and 60_exceptions.md R171, R172, the
invariant of every state, and what an instruction leaves unchanged. -/

namespace Sys2Proof.Machine

/-- The byte at `pc + k`, as a step reads it: `k` = 0 is the opcode, 1 and 2 the operands (R70). -/
def State.byteAt (s : State) (k : Nat) : Byte := Memory.read s.mem (s.pc.toNat + k)

/-- The run has ended (R206): the core is halted or faulted. -/
def State.ended (s : State) : Bool := s.halted || s.fault.isSome

/-- The only successful end (R206): halted, and no fault. -/
def State.succeeded (s : State) : Bool := s.halted && s.fault.isNone

/-- A run from `s` ends in `t` (R99, R203): `t` has ended and is reached by steps from states that
have not. -/
def RunEnds (s t : State) : Prop :=
  ∃ n, runFor n s = t ∧ t.ended = true ∧ ∀ m, m < n → (runFor m s).ended = false

/-- A run from `s` never ends (R100): after any number of steps the core has not ended and the next
step may begin. -/
def RunsForever (s : State) : Prop :=
  ∀ n, (runFor n s).ended = false ∧ (runFor n s).ready = true

/-- `n` executions of PUSH of the register operand `a`, one after another (R213). -/
def pushTimes (a : Byte) : Nat → State → State
  | 0, s => s
  | n + 1, s =>
    match exec (.push a) s with
    | .next t => pushTimes a n t
    | .fault _ => s
    | .refused _ => s

/-- What one line of program text stands for (R205), with the model's choices on white space
(log 14): no byte, for white space that a comment may follow; or the byte `b`, for the eight binary
digits of `b`, with white space before them, and after them white space and then a comment. -/
def LineMeans (line : List Char) : Option Byte → Prop
  | none => ∃ blank comment, line = blank ++ comment ∧ (∀ c ∈ blank, isBlankChar c = true) ∧
      (comment = [] ∨ comment.head? = some '#')
  | some b => ∃ before after comment, line = before ++ binaryLine b ++ after ++ comment ∧
      (∀ c ∈ before, isBlankChar c = true) ∧ (∀ c ∈ after, isBlankChar c = true) ∧
      (comment = [] ∨ (comment.head? = some '#' ∧ after ≠ []))

/-- A line that stands for nothing: a `LoadError` (R205). -/
def LineMalformed (line : List Char) : Prop := ∀ meaning, ¬LineMeans line meaning

/-! ### Frames -/

/-- Every byte of memory reads as before. -/
def SameMemory (s t : State) : Prop :=
  ∀ addr, Memory.read t.mem addr = Memory.read s.mem addr

/-- Every byte of memory but the one at `at_` reads as before. -/
def SameMemoryBut (at_ : Nat) (s t : State) : Prop :=
  ∀ addr, addr ≠ at_ → Memory.read t.mem addr = Memory.read s.mem addr

/-- Every register keeps its value. -/
def SameRegs (s t : State) : Prop := ∀ r : RegIdx, t.reg r = s.reg r

/-- Every register but `d` keeps its value. -/
def SameRegsBut (d : RegIdx) (s t : State) : Prop := ∀ r : RegIdx, r ≠ d → t.reg r = s.reg r

/-- What no handler but HLT's writes when it completes: `ir`, `halted`, `fault`, and the model's own
`latch` and `loadPhase`. -/
def SameControl (s t : State) : Prop :=
  t.ir = s.ir ∧ t.halted = s.halted ∧ t.fault = s.fault ∧ t.latch = s.latch ∧
    t.loadPhase = s.loadPhase

/-- The outcome of a step that faults with record `r` after fetching (R165): a next state in which
`ir` holds the opcode byte, `fault` holds `r`, and everything else is as it was; of the model's own
fields, the latches are empty and the load window is over. -/
def FaultsWith (s : State) (ir : Byte) (r : FaultRecord) : Prop :=
  step s = .next { s with ir := ir, fault := some r, latch := none, loadPhase := .stepped }

/-- Stage 3 faults for the opcode byte `op` at addresses 254 and 255 (R93): the step raises
`OutOfBounds` (FetchOperand) at address 256, with no operands in the record. -/
def OperandFetchFaults (op : Byte) : Prop :=
  ∀ s : State, s.ready = true → s.byteAt 0 = op → 254 ≤ s.pc.toNat → s.pc.toNat ≤ 255 →
    FaultsWith s op
      { kind := .outOfBounds .fetchOperand, pc := s.pc, ir := some op, operands := none,
        addr := 256#9, badOperand := none }

/-- `InvalidRegister` raised on the operand at `pos`, with no other effect (R24, R170). -/
def raisesInvalidRegister (pos : OperandPos) (s : State) : Result :=
  .next (raise .invalidRegister 0 (some pos) s)

/-! ### The tables of R27, R171 and R172 -/

/-- Operand_a is used as a register index, given `fl` (R170, R171). -/
def Op.usesA (fl : Bool) : Op → Bool
  | .ldi => true
  | .prn => true
  | .add => true
  | .mul => true
  | .cmp => true
  | .push => true
  | .pop => true
  | .call => true
  | .ret => false
  | .jmp => true
  | .jeq => fl
  | .jne => !fl
  | .hlt => false

/-- Operand_b is used as a register index (R170, R171). -/
def Op.usesB : Op → Bool
  | .ldi => false
  | .prn => false
  | .add => true
  | .mul => true
  | .cmp => true
  | .push => false
  | .pop => false
  | .call => false
  | .ret => false
  | .jmp => false
  | .jeq => false
  | .jne => false
  | .hlt => false

/-- The instructions StackOverflow is checked for (R171). -/
def Op.pushes : Op → Bool
  | .ldi => false
  | .prn => false
  | .add => false
  | .mul => false
  | .cmp => false
  | .push => true
  | .pop => false
  | .call => true
  | .ret => false
  | .jmp => false
  | .jeq => false
  | .jne => false
  | .hlt => false

/-- The instructions StackUnderflow is checked for (R171). -/
def Op.pops : Op → Bool
  | .ldi => false
  | .prn => false
  | .add => false
  | .mul => false
  | .cmp => false
  | .push => false
  | .pop => true
  | .call => false
  | .ret => true
  | .jmp => false
  | .jeq => false
  | .jne => false
  | .hlt => false

/-- The register a register operand byte selects, where it is legal; used only where the byte is
below 8, so that the reduction modulo 8 changes nothing. -/
def operandReg (b : Byte) : RegIdx := ⟨b.toNat % 8, Nat.mod_lt _ (by decide)⟩

/-- The table of R27: `pc` after a completed step whose opcode is `o`. -/
def State.nextPc (s : State) : Op → Nat
  | .ldi => s.pc.toNat + 3
  | .add => s.pc.toNat + 3
  | .mul => s.pc.toNat + 3
  | .cmp => s.pc.toNat + 3
  | .prn => s.pc.toNat + 2
  | .push => s.pc.toNat + 2
  | .pop => s.pc.toNat + 2
  | .call => (s.decSp.reg (operandReg (s.byteAt 1))).toNat
  | .ret => (Memory.read s.mem s.sp.toNat).toNat
  | .jmp => (s.reg (operandReg (s.byteAt 1))).toNat
  | .jeq => if s.fl then (s.reg (operandReg (s.byteAt 1))).toNat else s.pc.toNat + 2
  | .jne => if s.fl then s.pc.toNat + 2 else (s.reg (operandReg (s.byteAt 1))).toNat
  | .hlt => s.pc.toNat

/-- The fault a step of `s` reports, and the operand it names: the first that applies in the order
of R172. -/
def State.firstFault (s : State) : Option (FaultKind × Option OperandPos) :=
  if 255 < s.pc.toNat then some (.outOfBounds .fetchOpcode, none)
  else if s.byteAt 0 = opcodeByte .hlt then none
  else if 255 < s.pc.toNat + 2 then some (.outOfBounds .fetchOperand, none)
  else
    match opcodeOf (s.byteAt 0) with
    | none => some (.illegalInstruction, none)
    | some o =>
      if Op.usesA s.fl o ∧ 8 ≤ (s.byteAt 1).toNat then some (.invalidRegister, some .operandA)
      else if Op.usesB o ∧ 8 ≤ (s.byteAt 2).toNat then some (.invalidRegister, some .operandB)
      else if Op.pushes o ∧ s.sp = 0#8 then some (.outOfBounds .stackOverflow, none)
      else if Op.pops o ∧ Config.stackBase ≤ s.sp.toNat then
        some (.outOfBounds .stackUnderflow, none)
      else none

/-- The address a fault of this kind records (R163). -/
def State.faultAddr (s : State) : FaultKind → Nat
  | .outOfBounds .fetchOpcode => s.pc.toNat
  | .outOfBounds .fetchOperand => 256
  | .outOfBounds .stackOverflow => s.sp.toNat
  | .outOfBounds .stackUnderflow => s.sp.toNat
  | _ => 0

/-! ### The invariant -/

/-- A fault record that a state with program counter `pc` and instruction register `ir` can hold
(R163, R165): its `pc` is the state's; the opcode is recorded unless the fetch itself failed, and is
the state's `ir`; the operands are recorded exactly when stage 3 succeeded; an address is recorded
for `OutOfBounds` only, and an operand for `InvalidRegister` only. -/
def FaultRecord.fits (r : FaultRecord) (pc : PcWord) (ir : Byte) : Prop :=
  r.pc = pc ∧
  (r.ir = if r.kind = .outOfBounds .fetchOpcode then none else some ir) ∧
  (r.operands.isSome = true ↔
    r.kind ≠ .outOfBounds .fetchOpcode ∧ r.kind ≠ .outOfBounds .fetchOperand) ∧
  ((∀ sub, r.kind ≠ .outOfBounds sub) → r.addr = 0#9) ∧
  (r.badOperand.isSome = true ↔ r.kind = .invalidRegister)

/-- What holds of every state that the host's operations and steps can reach from reset. -/
structure CoreInv (s : State) : Prop where
  /-- Memory is in its canonical form. -/
  mem_wf : Memory.wf s.mem = true
  /-- `pc` is in 0 to 256 (R31). -/
  pc_le : s.pc.toNat ≤ 256
  /-- The latches hold nothing from one step to the next (R38). -/
  latch_none : s.latch = none
  /-- A halted core has no fault (R99). -/
  halted_no_fault : s.halted = true → s.fault = none
  /-- A halted core's `pc` points at the HLT byte it fetched (R98, R153). -/
  halted_at_hlt : s.halted = true →
    s.pc.toNat ≤ 255 ∧ s.ir = opcodeByte .hlt ∧ s.byteAt 0 = opcodeByte .hlt
  /-- A fault record describes the state it stands in (R163, R165). -/
  fault_fits : ∀ r, s.fault = some r → r.fits s.pc s.ir
  /-- Before the first step, and after a failed load, the core is in its reset state but for what
  `load` wrote (R169, R201, R207). -/
  unstepped : s.loadPhase ≠ .stepped →
    s.pc = 0#9 ∧ s.ir = 0#8 ∧ s.fl = false ∧ s.sp = 0xF4#8 ∧ s.halted = false ∧
      s.fault = none ∧ s.out = []

end Sys2Proof.Machine
end

