-- ==== Sys2Proof/Certificates/Slice0/Obligations.lean ====
section
/-! DEFINITION. The statements for the provers. Each docstring names the rule of spec/ it formalises
and, where a clause rests on a decision of 92_eei_decisions.md or a choice of the model, that
decision and its log entry. -/

open Sys2Proof Sys2Proof.Machine

/-! ### Encoding -/

/-- 30_encoding.md R70, R71, R74: under every opcode map with distinct values, and so under R72's,
decoding an encoded instruction gives it back with every operand byte, and leaves the bytes after it.
That R72's values are LS-8's is the spec's decision D1 (log 2). -/
def Obligations.DecodeOfEncodeIsIdentity : Prop :=
  Function.Injective opcodeByte ∧
  (∀ i rest, decode (encode i ++ rest) = .ok (i, rest)) ∧
  ∀ (m : Op → Byte), Function.Injective m → ∀ i rest,
    decodeWith m (encodeWith m i ++ rest) = .ok (i, rest)

/-- 30_encoding.md R70, R74, R80: a byte sequence that decodes begins with exactly the encoding of
the instruction it decodes to, so no two words mean the same instruction. -/
def Obligations.DecodedBytesAreTheEncoding : Prop :=
  ∀ (m : Op → Byte) (bytes : List Byte) i rest,
    decodeWith m bytes = .ok (i, rest) → bytes = encodeWith m i ++ rest

/-- R74: an opcode is selected exactly when all 8 bits equal its value; and no field of the byte is
read to find the length or the operand count: whatever distinct values a map gives the thirteen
opcodes, the instruction and its length are those of the opcode's name. -/
def Obligations.OpcodeSelectedByWholeByte : Prop :=
  (∀ (b : Byte) (o : Op), opcodeOf b = some o ↔ b = opcodeByte o) ∧
  ∀ (m : Op → Byte), Function.Injective m →
    (∀ (b : Byte) (o : Op), opcodeOfWith m b = some o ↔ b = m o) ∧
    ∀ (o : Op) (a b : Byte) (rest : List Byte),
      decodeWith m (m o :: a :: b :: rest) =
        .ok (o.instr a b, (a :: b :: rest).drop (o.format.length - 1))

/-- 30_encoding.md R76: a byte that is none of the thirteen values is rejected whatever follows it,
and there are 243 of them, 0x00 among them. The values are D1's (log 2). -/
def Obligations.OtherOpcodeBytesAreIllegal : Prop :=
  (∀ (b : Byte) (rest : List Byte),
    b ∉ ([0x82, 0x47, 0xA0, 0xA2, 0xA7, 0x45, 0x46, 0x50, 0x11, 0x54, 0x55, 0x56, 0x01] : List Byte) →
      decode (b :: rest) = .error (.illegalOpcode b)) ∧
  ((List.range 256).filter fun n => decide (opcodeOf (wrap8 n) = none)).length = 243 ∧
  opcodeOf 0x00#8 = none

/-- 30_encoding.md R71, R72 and the opcode table: one word of each row, written out from its
encoding, decodes to the instruction it stands for. The values are D1's (log 2). -/
def Obligations.WordsOfTheTableDecode : Prop :=
  decodeTableWord 24 0xC30582 = some (.ldi 0x05 0xC3) ∧
  decodeTableWord 16 0x0347 = some (.prn 0x03) ∧
  decodeTableWord 24 0x0601A0 = some (.add 0x01 0x06) ∧
  decodeTableWord 24 0x0502A2 = some (.mul 0x02 0x05) ∧
  decodeTableWord 24 0x0403A7 = some (.cmp 0x03 0x04) ∧
  decodeTableWord 16 0x0645 = some (.push 0x06) ∧
  decodeTableWord 16 0x0246 = some (.pop 0x02) ∧
  decodeTableWord 16 0x0150 = some (.call 0x01) ∧
  decodeTableWord 8 0x11 = some .ret ∧
  decodeTableWord 16 0x0354 = some (.jmp 0x03) ∧
  decodeTableWord 16 0x0455 = some (.jeq 0x04) ∧
  decodeTableWord 16 0x0756 = some (.jne 0x07) ∧
  decodeTableWord 8 0x01 = some .hlt

/-- 30_encoding.md R71, R75, R80: the opcode byte alone sets how many bytes an instruction takes,
and that is 1, 2 or 3. -/
def Obligations.OpcodeAloneSetsTheLength : Prop :=
  (∀ b rest rest' i i' after after',
    decode (b :: rest) = .ok (i, after) → decode (b :: rest') = .ok (i', after') →
      (b :: rest).length - after.length = (b :: rest').length - after'.length) ∧
  ∀ i, (encode i).length = i.op.format.length ∧ 1 ≤ (encode i).length ∧ (encode i).length ≤ 3

/-! ### Memory and ALU -/

/-- 00_scope.md R12, R13 and 20_memory.md R52, R56: in 0 to 255 a read gives the cell, and a write of
`v` makes the cell `v mod 256` and changes nothing else; outside, neither takes place. -/
def Obligations.MemReadAndMemWriteOfOneCell : Prop :=
  ∀ (s : State) (addr v : Nat), Memory.wf s.mem = true →
    (addr ≤ 255 →
      s.memRead addr = some (Memory.read s.mem addr) ∧
      ∃ t, s.memWrite addr v = some t ∧ t = { s with mem := t.mem } ∧ Memory.wf t.mem = true ∧
        (t.memRead addr).map BitVec.toNat = some (v % 256) ∧ SameMemoryBut addr s t) ∧
    (255 < addr → s.memRead addr = none ∧ s.memWrite addr v = none)

/-- The model's own (log 13): two memories in canonical form that read the same at every address are
the same list. -/
def Obligations.CanonicalMemoryIsUnique : Prop :=
  ∀ m m' : Memory, Memory.wf m = true → Memory.wf m' = true →
    (∀ addr, Memory.read m addr = Memory.read m' addr) → m = m'

/-- R120, R125: the ALU is a pure function of two registers and `fl`; ADD and MUL give the exact sum
and product modulo 256 in `R[a]` and nothing else, CMP writes `fl` and nothing else. R121: it has no
other operation. -/
def Obligations.AluArithmeticIsModulo256 : Prop :=
  (∀ (a b : RegIdx) (regs : Vector Byte 8) (fl : Bool) (x y : Byte), regs[a] = x → regs[b] = y →
    (∃ v : Byte, alu .add a b regs fl = .ok (regs.set a v, fl) ∧
      v.toNat = (x.toNat + y.toNat) % 256) ∧
    (∃ v : Byte, alu .mul a b regs fl = .ok (regs.set a v, fl) ∧
      v.toNat = (x.toNat * y.toNat) % 256) ∧
    (∃ f : Bool, alu .cmp a b regs fl = .ok (regs, f) ∧ (f = true ↔ x = y))) ∧
  ∀ (code : Byte) (a b : RegIdx) (regs : Vector Byte 8) (fl : Bool),
    alu (.other code) a b regs fl = .error .invalidAluOperation

/-! ### Each instruction: its encoding, where it completes and what it then does and leaves unchanged,
and its own faults -/

/-- 41_load_and_output.md, LDI (R110). Its opcode value is the spec's decision D1 (log 2), InvalidRegister its
decision D5 (log 5). -/
def Obligations.LdiLoadsImmediate : Prop :=
  (∀ a imm, encode (.ldi a imm) = [0x82#8, a, imm]) ∧
  (∀ (a imm : Byte) (s : State) (r : RegIdx), a.toNat = r.val → s.pc.toNat ≤ 253 →
    ∃ t, exec (.ldi a imm) s = .next t ∧
      t.reg r = imm ∧ SameRegsBut r s t ∧ t.pc.toNat = s.pc.toNat + 3 ∧
      t.fl = s.fl ∧ t.out = s.out ∧ SameMemory s t ∧ SameControl s t) ∧
  (∀ (a imm : Byte) (s : State), 8 ≤ a.toNat →
    exec (.ldi a imm) s = raisesInvalidRegister .operandA s) ∧
  OperandFetchFaults 0x82#8

/-- 41_load_and_output.md, PRN (R113). Its opcode value is the spec's decision D1 (log 2), InvalidRegister its
decision D5 (log 5). -/
def Obligations.PrnAppendsRegisterToOutput : Prop :=
  (∀ a, encode (.prn a) = [0x47#8, a]) ∧
  (∀ (a : Byte) (s : State) (r : RegIdx), a.toNat = r.val → s.pc.toNat ≤ 253 →
    ∃ t, exec (.prn a) s = .next t ∧
      t.out = s.out ++ [s.reg r] ∧ SameRegs s t ∧ t.pc.toNat = s.pc.toNat + 2 ∧
      t.fl = s.fl ∧ SameMemory s t ∧ SameControl s t) ∧
  (∀ (a : Byte) (s : State), 8 ≤ a.toNat →
    exec (.prn a) s = raisesInvalidRegister .operandA s) ∧
  OperandFetchFaults 0x47#8

/-- 42_alu.md, ADD (R122). Its opcode value is the spec's decision D1 (log 2), InvalidRegister its
decision D5 (log 5). -/
def Obligations.AddIsSumModulo256 : Prop :=
  (∀ a b, encode (.add a b) = [0xA0#8, a, b]) ∧
  (∀ (a b : Byte) (s : State) (ra rb : RegIdx), a.toNat = ra.val → b.toNat = rb.val →
    s.pc.toNat ≤ 253 →
    ∃ t, exec (.add a b) s = .next t ∧
      (t.reg ra).toNat = ((s.reg ra).toNat + (s.reg rb).toNat) % 256 ∧ SameRegsBut ra s t ∧
      t.pc.toNat = s.pc.toNat + 3 ∧
      t.fl = s.fl ∧ t.out = s.out ∧ SameMemory s t ∧ SameControl s t) ∧
  (∀ (a b : Byte) (s : State), 8 ≤ a.toNat →
    exec (.add a b) s = raisesInvalidRegister .operandA s) ∧
  (∀ (a b : Byte) (s : State), a.toNat < 8 → 8 ≤ b.toNat →
    exec (.add a b) s = raisesInvalidRegister .operandB s) ∧
  OperandFetchFaults 0xA0#8

/-- 42_alu.md, MUL (R123). Its opcode value is the spec's decision D1 (log 2), InvalidRegister its
decision D5 (log 5). -/
def Obligations.MulIsProductModulo256 : Prop :=
  (∀ a b, encode (.mul a b) = [0xA2#8, a, b]) ∧
  (∀ (a b : Byte) (s : State) (ra rb : RegIdx), a.toNat = ra.val → b.toNat = rb.val →
    s.pc.toNat ≤ 253 →
    ∃ t, exec (.mul a b) s = .next t ∧
      (t.reg ra).toNat = ((s.reg ra).toNat * (s.reg rb).toNat) % 256 ∧ SameRegsBut ra s t ∧
      t.pc.toNat = s.pc.toNat + 3 ∧
      t.fl = s.fl ∧ t.out = s.out ∧ SameMemory s t ∧ SameControl s t) ∧
  (∀ (a b : Byte) (s : State), 8 ≤ a.toNat →
    exec (.mul a b) s = raisesInvalidRegister .operandA s) ∧
  (∀ (a b : Byte) (s : State), a.toNat < 8 → 8 ≤ b.toNat →
    exec (.mul a b) s = raisesInvalidRegister .operandB s) ∧
  OperandFetchFaults 0xA2#8

/-- 42_alu.md, CMP (R124). Its opcode value is the spec's decision D1 (log 2), InvalidRegister its
decision D5 (log 5). -/
def Obligations.CmpWritesTheEqualFlag : Prop :=
  (∀ a b, encode (.cmp a b) = [0xA7#8, a, b]) ∧
  (∀ (a b : Byte) (s : State) (ra rb : RegIdx), a.toNat = ra.val → b.toNat = rb.val →
    s.pc.toNat ≤ 253 →
    ∃ t, exec (.cmp a b) s = .next t ∧
      (t.fl = true ↔ s.reg ra = s.reg rb) ∧ SameRegs s t ∧ t.pc.toNat = s.pc.toNat + 3 ∧
      t.out = s.out ∧ SameMemory s t ∧ SameControl s t) ∧
  (∀ (a b : Byte) (s : State), 8 ≤ a.toNat →
    exec (.cmp a b) s = raisesInvalidRegister .operandA s) ∧
  (∀ (a b : Byte) (s : State), a.toNat < 8 → 8 ≤ b.toNat →
    exec (.cmp a b) s = raisesInvalidRegister .operandB s) ∧
  OperandFetchFaults 0xA7#8

/-- 43_stack.md, PUSH (R133). The cell written is at the decremented SP, and the value is read after
the decrement, so PUSH R7 stores the new SP. Its opcode value is the spec's decision D1 (log 2),
InvalidRegister its D5 (log 5), StackOverflow its D6 (log 6). -/
def Obligations.PushStoresBelowTheStackPointer : Prop :=
  (∀ a, encode (.push a) = [0x45#8, a]) ∧
  (∀ (a : Byte) (s : State) (r : RegIdx), a.toNat = r.val → s.sp ≠ 0#8 → s.pc.toNat ≤ 253 →
    Memory.wf s.mem = true →
    ∃ t, exec (.push a) s = .next t ∧
      t.sp.toNat = s.sp.toNat - 1 ∧ SameRegsBut 7 s t ∧
      s.decSp.sp.toNat = s.sp.toNat - 1 ∧
      Memory.read t.mem s.decSp.sp.toNat = s.decSp.reg r ∧
      (r ≠ 7 → s.decSp.reg r = s.reg r) ∧ (r = 7 → s.decSp.reg r = t.sp) ∧
      SameMemoryBut s.decSp.sp.toNat s t ∧
      t.pc.toNat = s.pc.toNat + 2 ∧ t.fl = s.fl ∧ t.out = s.out ∧ SameControl s t) ∧
  (∀ (a : Byte) (s : State), 8 ≤ a.toNat →
    exec (.push a) s = raisesInvalidRegister .operandA s) ∧
  (∀ (a : Byte) (s : State), a.toNat < 8 → s.sp = 0#8 →
    exec (.push a) s = .next (raise (.outOfBounds .stackOverflow) s.sp.toNat none s)) ∧
  OperandFetchFaults 0x45#8

/-- 43_stack.md, POP (R134). That POP R7 leaves the popped byte plus one is the spec's derived
remark; StackUnderflow is its decision D7 (log 6), InvalidRegister D5 (log 5), the opcode value D1
(log 2). -/
def Obligations.PopLoadsAndRaisesTheStackPointer : Prop :=
  (∀ a, encode (.pop a) = [0x46#8, a]) ∧
  (∀ (a : Byte) (s : State) (r : RegIdx), a.toNat = r.val → s.sp.toNat < 0xF4 →
    s.pc.toNat ≤ 253 →
    ∃ t, exec (.pop a) s = .next t ∧
      (r ≠ 7 → t.reg r = Memory.read s.mem s.sp.toNat ∧ t.sp.toNat = s.sp.toNat + 1) ∧
      (r = 7 → t.sp.toNat = ((Memory.read s.mem s.sp.toNat).toNat + 1) % 256) ∧
      (∀ q : RegIdx, q ≠ r → q ≠ 7 → t.reg q = s.reg q) ∧
      t.pc.toNat = s.pc.toNat + 2 ∧
      t.fl = s.fl ∧ t.out = s.out ∧ SameMemory s t ∧ SameControl s t) ∧
  (∀ (a : Byte) (s : State), 8 ≤ a.toNat →
    exec (.pop a) s = raisesInvalidRegister .operandA s) ∧
  (∀ (a : Byte) (s : State), a.toNat < 8 → 0xF4 ≤ s.sp.toNat →
    exec (.pop a) s = .next (raise (.outOfBounds .stackUnderflow) s.sp.toNat none s)) ∧
  OperandFetchFaults 0x46#8

/-- 44_control_transfer.md, CALL (R140, R141). StackOverflow is the spec's decision D6 (log 6),
InvalidRegister D5 (log 5), the opcode value D1 (log 2); that CALL R7 jumps to the new SP is its
derived remark. -/
def Obligations.CallPushesTheReturnAddress : Prop :=
  (∀ a, encode (.call a) = [0x50#8, a]) ∧
  (∀ (a : Byte) (s : State) (r : RegIdx), a.toNat = r.val → s.sp ≠ 0#8 → s.pc.toNat ≤ 253 →
    Memory.wf s.mem = true →
    ∃ t, exec (.call a) s = .next t ∧
      t.sp.toNat = s.sp.toNat - 1 ∧ SameRegsBut 7 s t ∧
      s.decSp.sp.toNat = s.sp.toNat - 1 ∧
      (Memory.read t.mem s.decSp.sp.toNat).toNat = s.pc.toNat + 2 ∧
      SameMemoryBut s.decSp.sp.toNat s t ∧
      (r ≠ 7 → t.pc.toNat = (s.reg r).toNat) ∧ (r = 7 → t.pc.toNat = t.sp.toNat) ∧
      t.fl = s.fl ∧ t.out = s.out ∧ SameControl s t) ∧
  (∀ (a : Byte) (s : State), 8 ≤ a.toNat →
    exec (.call a) s = raisesInvalidRegister .operandA s) ∧
  (∀ (a : Byte) (s : State), a.toNat < 8 → s.sp = 0#8 →
    exec (.call a) s = .next (raise (.outOfBounds .stackOverflow) s.sp.toNat none s)) ∧
  OperandFetchFaults 0x50#8

/-- 44_control_transfer.md, RET (R142). StackUnderflow is the spec's decision D7 (log 6), the opcode
value D1 (log 2). -/
def Obligations.RetPopsTheReturnAddress : Prop :=
  encode .ret = [0x11#8] ∧
  (∀ s : State, s.sp.toNat < 0xF4 →
    ∃ t, exec .ret s = .next t ∧
      t.pc.toNat = (Memory.read s.mem s.sp.toNat).toNat ∧ t.sp.toNat = s.sp.toNat + 1 ∧
      SameRegsBut 7 s t ∧
      t.fl = s.fl ∧ t.out = s.out ∧ SameMemory s t ∧ SameControl s t) ∧
  (∀ s : State, 0xF4 ≤ s.sp.toNat →
    exec .ret s = .next (raise (.outOfBounds .stackUnderflow) s.sp.toNat none s)) ∧
  OperandFetchFaults 0x11#8

/-- 44_control_transfer.md, JMP (R144). Its opcode value is the spec's decision D1 (log 2), InvalidRegister its
decision D5 (log 5). -/
def Obligations.JmpSetsPcToTheRegister : Prop :=
  (∀ a, encode (.jmp a) = [0x54#8, a]) ∧
  (∀ (a : Byte) (s : State) (r : RegIdx), a.toNat = r.val →
    ∃ t, exec (.jmp a) s = .next t ∧
      t.pc.toNat = (s.reg r).toNat ∧ SameRegs s t ∧
      t.fl = s.fl ∧ t.out = s.out ∧ SameMemory s t ∧ SameControl s t) ∧
  (∀ (a : Byte) (s : State), 8 ≤ a.toNat →
    exec (.jmp a) s = raisesInvalidRegister .operandA s) ∧
  OperandFetchFaults 0x54#8

/-- 44_control_transfer.md, JEQ (R148). That a bad operand is no fault when not taken is the spec's
decision D20 (log 19); InvalidRegister is D5 (log 5), the opcode value D1 (log 2). -/
def Obligations.JeqJumpsWhenTheFlagIsSet : Prop :=
  (∀ a, encode (.jeq a) = [0x55#8, a]) ∧
  (∀ (a : Byte) (s : State), s.pc.toNat ≤ 253 → (s.fl = true → a.toNat < 8) →
    ∃ t, exec (.jeq a) s = .next t ∧
      (s.fl = true → ∀ r : RegIdx, a.toNat = r.val → t.pc.toNat = (s.reg r).toNat) ∧
      (s.fl = false → t.pc.toNat = s.pc.toNat + 2) ∧
      SameRegs s t ∧ t.fl = s.fl ∧ t.out = s.out ∧ SameMemory s t ∧ SameControl s t) ∧
  (∀ (a : Byte) (s : State), s.fl = true → 8 ≤ a.toNat →
    exec (.jeq a) s = raisesInvalidRegister .operandA s) ∧
  OperandFetchFaults 0x55#8

/-- 44_control_transfer.md, JNE (R150). That a bad operand is no fault when not taken is the spec's
decision D20 (log 19); InvalidRegister is D5 (log 5), the opcode value D1 (log 2). -/
def Obligations.JneJumpsWhenTheFlagIsClear : Prop :=
  (∀ a, encode (.jne a) = [0x56#8, a]) ∧
  (∀ (a : Byte) (s : State), s.pc.toNat ≤ 253 → (s.fl = false → a.toNat < 8) →
    ∃ t, exec (.jne a) s = .next t ∧
      (s.fl = false → ∀ r : RegIdx, a.toNat = r.val → t.pc.toNat = (s.reg r).toNat) ∧
      (s.fl = true → t.pc.toNat = s.pc.toNat + 2) ∧
      SameRegs s t ∧ t.fl = s.fl ∧ t.out = s.out ∧ SameMemory s t ∧ SameControl s t) ∧
  (∀ (a : Byte) (s : State), s.fl = false → 8 ≤ a.toNat →
    exec (.jne a) s = raisesInvalidRegister .operandA s) ∧
  OperandFetchFaults 0x56#8

/-- 44_control_transfer.md R153 and 40_fetch_decode_execute.md R92: HLT sets `halted` and changes
nothing else; its step reads no operand, so it halts at every address from 0 to 255, with `pc` at its
own address and `ir` holding the HLT opcode; and then no step follows. That a halted core's step
answers the same state is R98, the spec's decision D10 (log 8); emptying the model's own latches and
ending its load window are log 9, 12. -/
def Obligations.HltHaltsAtEveryAddress : Prop :=
  (∀ s : State, ∃ t, exec .hlt s = .next t ∧ t.halted = true ∧ t.pc = s.pc ∧ SameRegs s t ∧
    t.fl = s.fl ∧ t.out = s.out ∧ SameMemory s t ∧ t.ir = s.ir ∧ t.fault = s.fault ∧
    t.latch = s.latch ∧ t.loadPhase = s.loadPhase) ∧
  ∀ s : State, s.ready = true → s.pc.toNat ≤ 255 → s.byteAt 0 = opcodeByte .hlt →
    step s = .next { s with halted := true, ir := opcodeByte .hlt, latch := none,
                            loadPhase := .stepped } ∧
    step { s with halted := true, ir := opcodeByte .hlt, latch := none, loadPhase := .stepped } =
      .next { s with halted := true, ir := opcodeByte .hlt, latch := none, loadPhase := .stepped }

/-! ### The step -/

/-- 40_fetch_decode_execute.md R91 to R97: where the three bytes at `pc` decode to an instruction and
a step may begin, the step is the instruction's handler run with `ir` and the operand latches loaded
(HLT before any operand is read), and the latches emptied after it. The latches and the load window
are the model's own fields (log 9, 12). -/
def Obligations.StepRunsTheDecodedInstruction : Prop :=
  ∀ (s : State) (i : Instr) (rest : List Byte), s.ready = true →
    decode [s.byteAt 0, s.byteAt 1, s.byteAt 2] = .ok (i, rest) →
    (i ≠ .hlt → s.pc.toNat ≤ 253 →
      step s = Result.mapNext State.endStep
        (exec i { s with ir := s.byteAt 0, latch := some (s.byteAt 1, s.byteAt 2),
                         loadPhase := .stepped })) ∧
    (i = .hlt → s.pc.toNat ≤ 255 →
      step s = Result.mapNext State.endStep
        (exec i { s with ir := s.byteAt 0, latch := none, loadPhase := .stepped }))

/-- 40_fetch_decode_execute.md R91: an opcode fetch above 255 raises `OutOfBounds` (FetchOpcode) at
that address, and `ir` is not written. That `pc` can hold 256 is the spec's decision D4 (log 4). -/
def Obligations.FetchBeyondMemoryFaults : Prop :=
  ∀ s : State, s.ready = true → 255 < s.pc.toNat →
    FaultsWith s s.ir
      { kind := .outOfBounds .fetchOpcode, pc := s.pc, ir := none, operands := none,
        addr := s.pc, badOperand := none }

/-- R93: every opcode but HLT, legal or not, has both operand bytes read, operand_a first: the read at
256 faults at `pc` 254 (operand_b) and 255 (operand_a), with nothing written after `ir`; below that
both are latched, and no such fault is raised. -/
def Obligations.EveryOtherOpcodeReadsBothOperands : Prop :=
  (∀ s : State, s.ready = true → s.byteAt 0 ≠ opcodeByte .hlt → s.pc.toNat = 254 ∨ s.pc.toNat = 255 →
    ∃ t r, step s = .next t ∧ t.fault = some r ∧ r.kind = .outOfBounds .fetchOperand ∧
      r.addr.toNat = 256 ∧ SameRegs s t ∧ t.pc = s.pc ∧ t.ir = s.byteAt 0 ∧ t.fl = s.fl ∧
      t.out = s.out ∧ t.halted = s.halted ∧ SameMemory s t) ∧
  (∀ s : State, s.pc.toNat ≤ 253 →
    readOperands s = .ok { s with latch := some (s.byteAt 1, s.byteAt 2) }) ∧
  ∀ s t : State, s.ready = true → s.pc.toNat ≤ 253 → step s = .next t →
    ∀ r, t.fault = some r → r.kind ≠ .outOfBounds .fetchOperand

/-- R94: an opcode byte that is none of the thirteen raises `IllegalInstruction` with `ir`, `pc` and
both operand bytes in the record; nothing but `ir` has changed, and `halted` stays 0. -/
def Obligations.IllegalOpcodeFaults : Prop :=
  ∀ s : State, s.ready = true → s.pc.toNat ≤ 253 → opcodeOf (s.byteAt 0) = none →
    ∃ t r, step s = .next t ∧ t.fault = some r ∧ r.kind = .illegalInstruction ∧
      r.ir = some (s.byteAt 0) ∧ r.pc = s.pc ∧ r.operands = some (s.byteAt 1, s.byteAt 2) ∧
      t.ir = s.byteAt 0 ∧ t.halted = false ∧ SameRegs s t ∧ t.pc = s.pc ∧ t.fl = s.fl ∧
      t.out = s.out ∧ SameMemory s t

/-- 10_state.md R24 and 60_exceptions.md R170, the spec's decisions D5 and D20 (log 5, 19): a register
operand of 8 to 255 raises `InvalidRegister` when the instruction uses it, naming the operand, with
no other effect; operand_a goes before operand_b. -/
def Obligations.BadRegisterOperandFaults : Prop :=
  ∀ (s : State) (o : Op), s.ready = true → s.pc.toNat ≤ 253 → opcodeOf (s.byteAt 0) = some o →
    (Op.usesA s.fl o = true → 8 ≤ (s.byteAt 1).toNat →
      FaultsWith s (s.byteAt 0)
        { kind := .invalidRegister, pc := s.pc, ir := some (s.byteAt 0),
          operands := some (s.byteAt 1, s.byteAt 2), addr := 0#9, badOperand := some .operandA }) ∧
    (Op.usesB o = true → (s.byteAt 1).toNat < 8 → 8 ≤ (s.byteAt 2).toNat →
      FaultsWith s (s.byteAt 0)
        { kind := .invalidRegister, pc := s.pc, ir := some (s.byteAt 0),
          operands := some (s.byteAt 1, s.byteAt 2), addr := 0#9, badOperand := some .operandB })

/-- 43_stack.md R131 and R132, the spec's decisions D6 and D7 (log 6): PUSH or CALL with SP = 0
raises StackOverflow, POP or RET with SP ≥ 0xF4 raises StackUnderflow, with SP as the address and no
other effect. -/
def Obligations.StackBoundsFault : Prop :=
  ∀ (s : State) (o : Op), s.ready = true → s.pc.toNat ≤ 253 → opcodeOf (s.byteAt 0) = some o →
    (Op.usesA s.fl o = true → (s.byteAt 1).toNat < 8) →
    (Op.pushes o = true → s.sp = 0#8 →
      FaultsWith s (s.byteAt 0)
        { kind := .outOfBounds .stackOverflow, pc := s.pc, ir := some (s.byteAt 0),
          operands := some (s.byteAt 1, s.byteAt 2), addr := 0#9, badOperand := none }) ∧
    (Op.pops o = true → 0xF4 ≤ s.sp.toNat →
      FaultsWith s (s.byteAt 0)
        { kind := .outOfBounds .stackUnderflow, pc := s.pc, ir := some (s.byteAt 0),
          operands := some (s.byteAt 1, s.byteAt 2), addr := BitVec.ofNat 9 s.sp.toNat,
          badOperand := none })

/-- 60_exceptions.md R171 and R172 (derived in the spec; the order in a handler is D19, log 18): a
step that may begin reports exactly the fault, and names exactly the operand, that the priority list
gives first, and none where the list gives none. -/
def Obligations.FaultIsTheFirstOfThePriorityList : Prop :=
  ∀ s : State, s.ready = true →
    ∃ t, step s = .next t ∧ (t.fault.map fun r => (r.kind, r.badOperand)) = s.firstFault

/-- 60_exceptions.md R165 and R163, the spec's decisions D8 and D9 (log 7, 17): a step that faults
changes nothing but `ir`, where stage 1 succeeded, and `fault`; and the record describes that step. The
model's own latches are empty and its load window is over (log 9, 12). -/
def Obligations.FaultsArePrecise : Prop :=
  ∀ (s t : State) (r : FaultRecord), step s = .next t → s.fault = none → t.fault = some r →
    t = { s with
            ir := if r.kind = .outOfBounds .fetchOpcode then s.ir else s.byteAt 0
            fault := some r, latch := none, loadPhase := .stepped } ∧
    r.fits s.pc t.ir ∧ r.addr = BitVec.ofNat 9 (s.faultAddr r.kind) ∧
    (∀ ab, r.operands = some ab → ab = (s.byteAt 1, s.byteAt 2))

/-- R102, R168: no instruction and no byte image raises `InvalidALUOperation`. 60_exceptions.md R167,
R169: nor does any step raise DataAccess or `LoadError`. -/
def Obligations.NoStepRaisesTheInternalFaults : Prop :=
  (∀ (i : Instr) (s t : State) (r : FaultRecord), s.fault = none → exec i s = .next t →
    t.fault = some r → r.kind ≠ .invalidAluOperation) ∧
  ∀ (s t : State) (r : FaultRecord), s.fault = none → step s = .next t → t.fault = some r →
    r.kind ≠ .invalidAluOperation ∧ r.kind ≠ .outOfBounds .dataAccess ∧ r.kind ≠ .loadError

/-- 40_fetch_decode_execute.md R90 and 60_exceptions.md R164: in every state, and for every
instruction, the model goes on: a step or a handler answers a next state. (That a fault is a next
state is the model's form, log 7.) -/
def Obligations.EveryStepAnswersANextState : Prop :=
  (∀ s : State, ∃ t, step s = .next t) ∧ ∀ (i : Instr) (s : State), ∃ t, exec i s = .next t

/-- 40_fetch_decode_execute.md R98, the spec's decision D10, and 70_reset_and_hazards.md R201, D13
(log 8, 9): a halted core, a faulted core, and a core whose load failed take no step. -/
def Obligations.StoppedCoreTakesNoStep : Prop :=
  ∀ s : State, s.halted = true ∨ s.fault.isSome = true ∨ s.loadPhase = .loadFailed →
    step s = .next s ∧ ∀ n, runFor n s = s

/-! ### Invariants -/

/-- The invariant `CoreInv` is kept by every step, from every state that has it (10_state.md R31, R38;
60_exceptions.md R163, R165; the canonical form of memory is the model's, log 13). -/
def Obligations.StepKeepsTheInvariant : Prop :=
  ∀ s t : State, CoreInv s → step s = .next t → CoreInv t

/-- `CoreInv` holds after reset, for every value of GPR_RESET (10_state.md R40, D2, log 1). -/
def Obligations.ResetHasTheInvariant : Prop :=
  (∀ g, CoreInv (State.resetWith g)) ∧ CoreInv State.reset

/-- `CoreInv` is kept by every request of the host, load included, and so holds of every state that any
sequence of requests leaves after reset (70_reset_and_hazards.md R200, R201). -/
def Obligations.HostRequestsKeepTheInvariant : Prop :=
  (∀ (q : HostRequest) (s : State), CoreInv s → CoreInv (hostRequest q s).2) ∧
  ∀ (g : Vector Byte 7) (qs : List HostRequest),
    CoreInv (qs.foldl (fun s q => (hostRequest q s).2) (State.resetWith g))

/-! ### What a step can write, state part by state part -/

/-- 41_load_and_output.md R116 and 10_state.md R39 (keeping `out` in the state is the spec's decision
D22): a step leaves `out` as it is, or is a PRN and appends exactly the byte it read. -/
def Obligations.OutputGrowsOnlyByPrn : Prop :=
  ∀ s t : State, step s = .next t →
    t.out = s.out ∨
    (s.ready = true ∧ s.byteAt 0 = opcodeByte .prn ∧
      ∃ r : RegIdx, (s.byteAt 1).toNat = r.val ∧ t.out = s.out ++ [s.reg r])

/-- R32: CMP alone writes `fl` (1 when its operands are equal, else 0), JEQ and JNE alone read it, and
it is 0 after reset. That no other instruction reads it: run with another `fl`, it does the same and
keeps that `fl`. -/
def Obligations.FlagIsWrittenByCmpAndReadByJumps : Prop :=
  (∀ g, (State.resetWith g).fl = false) ∧
  (∀ s t : State, step s = .next t → t.fl ≠ s.fl → s.byteAt 0 = opcodeByte .cmp) ∧
  (∀ (s t : State) (ra rb : RegIdx), s.ready = true → s.pc.toNat ≤ 253 →
    s.byteAt 0 = opcodeByte .cmp → (s.byteAt 1).toNat = ra.val → (s.byteAt 2).toNat = rb.val →
    step s = .next t → (t.fl = true ↔ s.reg ra = s.reg rb)) ∧
  ∀ (i : Instr) (s t : State) (f : Bool), s.fault = none → i.op ≠ .jeq → i.op ≠ .jne →
    exec i s = .next t →
    (i.op ≠ .cmp → exec i { s with fl := f } = .next { t with fl := f }) ∧
    (i.op = .cmp → t.fault = none → exec i { s with fl := f } = .next t)

/-- R34: `halted` is 0 after reset, becomes 1 exactly by a step that fetches HLT, and is never cleared
by a step or a load, only by reset; while it is 1 the core takes no step. -/
def Obligations.HaltedIsSetOnlyByHlt : Prop :=
  (∀ g, (State.resetWith g).halted = false) ∧
  (∀ s t : State, step s = .next t → s.halted = false →
    (t.halted = true ↔ s.ready = true ∧ s.pc.toNat ≤ 255 ∧ s.byteAt 0 = opcodeByte .hlt)) ∧
  (∀ s t : State, step s = .next t → s.halted = true → t = s) ∧
  ∀ (g : Vector Byte 7) (bytes : List Byte) (s : State),
    (hostReset g s).halted = false ∧ (hostLoad bytes s).2.halted = s.halted

/-- R27: `pc` after a completed step is the table's, and after a faulting step it is unchanged. -/
def Obligations.PcFollowsTheUpdateTable : Prop :=
  (∀ (s t : State) (o : Op), s.ready = true → s.pc.toNat ≤ 255 → opcodeOf (s.byteAt 0) = some o →
    step s = .next t → t.fault = none → t.pc.toNat = s.nextPc o) ∧
  ∀ s t : State, s.fault = none → step s = .next t → t.fault ≠ none → t.pc = s.pc

/-- 10_state.md R25, the writes column, R22 and R23: a step changes a register only where it is the
destination of LDI, ADD, MUL or POP, or is SP and the opcode is PUSH, POP, CALL or RET. -/
def Obligations.RegistersChangeOnlyByTheTable : Prop :=
  ∀ (s t : State) (r : RegIdx), step s = .next t → t.reg r ≠ s.reg r →
    ∃ o, opcodeOf (s.byteAt 0) = some o ∧
      ((o ∈ [Op.ldi, Op.add, Op.mul, Op.pop] ∧ (s.byteAt 1).toNat = r.val) ∨
        (o ∈ [Op.push, Op.pop, Op.call, Op.ret] ∧ r = 7))

/-- 20_memory.md R51 and R58: a step changes a byte of memory only if the opcode is PUSH or CALL, and
then only the one at the decremented SP. -/
def Obligations.MemoryChangesOnlyByPushAndCall : Prop :=
  ∀ (s t : State) (addr : Nat), Memory.wf s.mem = true → step s = .next t →
    Memory.read t.mem addr ≠ Memory.read s.mem addr →
    (s.byteAt 0 = opcodeByte .push ∨ s.byteAt 0 = opcodeByte .call) ∧ s.sp ≠ 0#8 ∧
      addr = s.decSp.sp.toNat

/-- 10_state.md R33: a step whose opcode fetch succeeds leaves the fetched byte in `ir`, also when it
faults later; one whose fetch faults leaves `ir` as it was; and no step reads `ir`. (The reset value
0x00 is the spec's decision D3, log 3.) -/
def Obligations.IrHoldsTheFetchedOpcode : Prop :=
  (∀ g, (State.resetWith g).ir = 0#8) ∧
  (∀ s t : State, s.ready = true → step s = .next t →
    t.ir = if s.pc.toNat ≤ 255 then s.byteAt 0 else s.ir) ∧
  ∀ (s t : State) (b : Byte), s.ready = true → step s = .next t →
    step { s with ir := b } = .next { t with ir := if s.pc.toNat ≤ 255 then t.ir else b }

/-- 10_state.md R38 and 30_encoding.md R77 (log 12): what the latches held before a step changes
nothing, and a handler that completes does not depend on the latched bytes beyond the operands its
format has: the bytes a format ignores have no effect. -/
def Obligations.LatchedBytesCarryNothing : Prop :=
  (∀ (s : State) (l : Option (Byte × Byte)), s.ready = true → step { s with latch := l } = step s) ∧
  ∀ (i : Instr) (s t : State) (l : Option (Byte × Byte)), s.fault = none → exec i s = .next t →
    t.fault = none → exec i { s with latch := l } = .next { t with latch := l }

/-! ### Laws over several steps -/

/-- 43_stack.md R135 (derived in the spec, under D7, log 6): PUSH Rk followed at once by POP Rk
restores every register, for every k from 0 to 7, and changes only the cell below the starting SP. -/
def Obligations.PushThenPopRestores : Prop :=
  ∀ (s : State) (k : RegIdx), CoreInv s → s.ready = true →
    1 ≤ s.sp.toNat → s.sp.toNat ≤ 0xF4 → s.pc.toNat ≤ 251 →
    s.byteAt 0 = opcodeByte .push → (s.byteAt 1).toNat = k.val →
    s.byteAt 2 = opcodeByte .pop → (s.byteAt 3).toNat = k.val →
    s.decSp.sp.toNat ≠ s.pc.toNat + 2 → s.decSp.sp.toNat ≠ s.pc.toNat + 3 →
    ∃ t u, step s = .next t ∧ step t = .next u ∧ u.fault = none ∧
      SameRegs s u ∧ u.pc.toNat = s.pc.toNat + 4 ∧
      Memory.read u.mem s.decSp.sp.toNat = s.decSp.reg k ∧ SameMemoryBut s.decSp.sp.toNat s u ∧
      u.fl = s.fl ∧ u.out = s.out

/-- 44_control_transfer.md R143 (derived in the spec, under D6 and D7, log 6): a CALL whose target is a
RET comes back to the instruction after the CALL with SP restored, and leaves the return address
below it. -/
def Obligations.CallThenRetReturns : Prop :=
  ∀ (s : State) (r : RegIdx), CoreInv s → s.ready = true →
    1 ≤ s.sp.toNat → s.sp.toNat ≤ 0xF4 → s.pc.toNat ≤ 253 →
    s.byteAt 0 = opcodeByte .call → (s.byteAt 1).toNat = r.val →
    (s.decSp.reg r).toNat ≤ 253 →
    Memory.read s.mem (s.decSp.reg r).toNat = opcodeByte .ret →
    s.decSp.sp.toNat ≠ (s.decSp.reg r).toNat →
    ∃ t u, step s = .next t ∧ step t = .next u ∧ u.fault = none ∧
      t.pc.toNat = (s.decSp.reg r).toNat ∧
      u.pc.toNat = s.pc.toNat + 2 ∧ u.sp = s.sp ∧ SameRegs s u ∧
      (Memory.read u.mem s.decSp.sp.toNat).toNat = s.pc.toNat + 2 ∧
      SameMemoryBut s.decSp.sp.toNat s u ∧ u.fl = s.fl ∧ u.out = s.out

/-- 43_stack.md R136 (derived in the spec): two values pushed come off in the reverse order. -/
def Obligations.StackIsLastInFirstOut : Prop :=
  ∀ (s : State) (a b c d : Byte) (ra rb rc rd : RegIdx),
    a.toNat = ra.val → b.toNat = rb.val → c.toNat = rc.val → d.toNat = rd.val →
    ra ≠ 7 → rb ≠ 7 → rc ≠ 7 → rd ≠ 7 → rc ≠ rd →
    Memory.wf s.mem = true → 2 ≤ s.sp.toNat → s.sp.toNat ≤ 0xF4 →
    ∃ s1 s2 s3 s4, exec (.push a) s = .next s1 ∧ exec (.push b) s1 = .next s2 ∧
      exec (.pop c) s2 = .next s3 ∧ exec (.pop d) s3 = .next s4 ∧ s4.fault = s.fault ∧
      s4.reg rc = s.reg rb ∧ s4.reg rd = s.reg ra ∧ s4.sp = s.sp

/-- 43_stack.md R132, the spec's decision D7 (log 6): with STACK_BASE at 256 the underflow check is
off, so POP into every register and RET complete at every SP, and SP's increment wraps modulo 256. That
POP R7 leaves the popped byte plus one is the spec's derived remark (R134). -/
def Obligations.StackBase256SwitchesTheCheckOff : Prop :=
  (∀ (a : Byte) (s : State) (r : RegIdx), a.toNat = r.val →
    ∃ t, execPopWith 256 a s = .next t ∧ t.fault = s.fault ∧
      (r ≠ 7 → t.reg r = Memory.read s.mem s.sp.toNat ∧ t.sp.toNat = (s.sp.toNat + 1) % 256) ∧
      (r = 7 → t.sp.toNat = ((Memory.read s.mem s.sp.toNat).toNat + 1) % 256)) ∧
  ∀ s : State, ∃ t, execRetWith 256 s = .next t ∧ t.fault = s.fault ∧
    t.pc.toNat = (Memory.read s.mem s.sp.toNat).toNat ∧ t.sp.toNat = (s.sp.toNat + 1) % 256

/-- 40_fetch_decode_execute.md R100 and 44_control_transfer.md R144 (i): a JMP to its own address is
a legal run that never ends: after any number of steps the core has neither halted nor faulted. -/
def Obligations.JumpToItselfRunsForever : Prop :=
  ∀ (s : State) (r : RegIdx), s.ready = true → s.pc.toNat ≤ 253 →
    s.byteAt 0 = opcodeByte .jmp → (s.byteAt 1).toNat = r.val → (s.reg r).toNat = s.pc.toNat →
    RunsForever s

/-- 20_memory.md R63 and 70_reset_and_hazards.md R211, the spec's decision D15: a fetch sees the byte
an earlier step wrote. A PUSH of the HLT opcode onto the byte after itself halts the core at the next
step, whatever stood there. -/
def Obligations.FetchSeesAnEarlierPush : Prop :=
  ∀ (s : State) (r : RegIdx), CoreInv s → s.ready = true → s.pc.toNat ≤ 253 → s.sp ≠ 0#8 →
    s.byteAt 0 = opcodeByte .push → (s.byteAt 1).toNat = r.val →
    s.decSp.reg r = opcodeByte .hlt → s.decSp.sp.toNat = s.pc.toNat + 2 →
    ∃ t u, step s = .next t ∧ step t = .next u ∧ u.succeeded = true ∧
      u.pc.toNat = s.pc.toNat + 2 ∧ u.ir = opcodeByte .hlt

/-- 70_reset_and_hazards.md R213 (derived in the spec, under D6, log 6): from the reset SP, 244 pushes
can be outstanding, and the 245th faults with StackOverflow. -/
def Obligations.TheStackHolds244Pushes : Prop :=
  ∀ (s : State) (a : Byte) (r : RegIdx), a.toNat = r.val → s.sp = 0xF4#8 → s.fault = none →
    (∀ n, n ≤ 244 → (pushTimes a n s).fault = none ∧ (pushTimes a n s).sp.toNat = 244 - n) ∧
    ((pushTimes a 245 s).fault.map FaultRecord.kind) = some (.outOfBounds .stackOverflow)

/-- 40_fetch_decode_execute.md R99 and 70_reset_and_hazards.md R206: a run has at most one end, and it
is either halted with no fault or faulted and not halted; only the first is a success. -/
def Obligations.ARunHasOneEndOfTwoKinds : Prop :=
  ∀ s t : State, CoreInv s → RunEnds s t →
    ((t.halted = true ∧ t.fault = none ∧ t.succeeded = true) ∨
      (t.halted = false ∧ t.fault ≠ none ∧ t.succeeded = false)) ∧
    ∀ u, RunEnds s u → u = t

/-! ### Reset, load, launch -/

/-- 10_state.md R40 and 70_reset_and_hazards.md R190, R191 (reset as a host operation is the spec's
decision D18; IR_RESET is D3, log 3; the latches and the load window are the model's, log 9, 12): a
reset, whatever the state was and for every value of GPR_RESET, leaves the table's values. -/
def Obligations.ResetLeavesTheTableValues : Prop :=
  ∀ (g : Vector Byte 7) (before : State), hostReset g before = State.resetWith g ∧
    (∀ k : Fin 7, (State.resetWith g).reg ⟨k.val, by omega⟩ = g[k]) ∧
    (State.resetWith g).sp = 0xF4#8 ∧ (State.resetWith g).pc = 0#9 ∧
    (State.resetWith g).ir = 0#8 ∧ (State.resetWith g).fl = false ∧
    (∀ addr, addr ≤ 255 → (State.resetWith g).memRead addr = some 0#8) ∧
    (State.resetWith g).halted = false ∧ (State.resetWith g).fault = none ∧
    (State.resetWith g).out = [] ∧ (State.resetWith g).ready = true

/-- R192: the reset entry point is address 0: the first step after reset and a load fetches `M[0]`. -/
def Obligations.FirstStepFetchesAddressZero : Prop :=
  ∀ (g : Vector Byte 7) (bytes : List Byte) (t : State), bytes.length ≤ 256 →
    (launchState g bytes).pc = 0#9 ∧
    (step (launchState g bytes) = .next t →
      t.ir = Memory.read (launchState g bytes).mem 0 ∧ t.ir = bytes.headD 0#8)

/-- 70_reset_and_hazards.md R207 (derived in the spec): the launch state is the reset state with the
bytes in memory from address 0 and 0x00 above them, for every value of GPR_RESET. -/
def Obligations.LaunchStateHoldsTheProgram : Prop :=
  ∀ (g : Vector Byte 7) (bytes : List Byte), bytes.length ≤ 256 →
    (∀ i, i ≤ 255 → Memory.read (launchState g bytes).mem i = bytes.getD i 0#8) ∧
    launchState g bytes = { State.resetWith g with mem := (launchState g bytes).mem } ∧
    CoreInv (launchState g bytes)

/-- 70_reset_and_hazards.md R201 and R191, the spec's decision D13 (log 9, 10): `load` is accepted only
before the first step and then writes its bytes from address 0 and nothing else; more than 256 bytes
are a LoadError, write nothing and bar every step until reset; at any other time `load` is refused and
changes nothing; and after any step that may begin, the window is over. -/
def Obligations.LoadIsPermittedOnlyBeforeTheFirstStep : Prop :=
  ∀ (bytes : List Byte) (s : State), Memory.wf s.mem = true →
    (s.loadPhase = .beforeFirstStep → bytes.length ≤ 256 →
      (hostLoad bytes s).1 = .accepted ∧
      (hostLoad bytes s).2 = { s with mem := (hostLoad bytes s).2.mem } ∧
      ∀ i, Memory.read (hostLoad bytes s).2.mem i = bytes.getD i (Memory.read s.mem i)) ∧
    (s.loadPhase = .beforeFirstStep → 256 < bytes.length →
      hostLoad bytes s = (.loadError, { s with loadPhase := .loadFailed }) ∧
      step (hostLoad bytes s).2 = .next (hostLoad bytes s).2) ∧
    (s.loadPhase ≠ .beforeFirstStep → hostLoad bytes s = (.refused, s)) ∧
    ∀ t, s.ready = true → step s = .next t → t.loadPhase = .stepped

/-! ### The host's text -/

/-- 70_reset_and_hazards.md R205 and R201 (digit order is the spec's general knowledge; the white space,
what may follow a token and the line end are the model's choice, log 14): each line stands for one byte
or for none, exactly as `LineMeans` says; a text whose lines stand for something loads as the bytes of
its token lines, in order: `hostLoadText` is then `hostLoad` of them, and from the reset state at most
256 of them stand in memory from address 0. -/
def Obligations.ProgramTextLoadsItsBytes : Prop :=
  (∀ (line : List Char) (meaning : Option Byte),
    parseLine line = .ok meaning ↔ LineMeans line meaning) ∧
  (∀ text : List Char, List.intercalate ['\n'] (splitLines text) = text ∧
    ∀ line ∈ splitLines text, '\n' ∉ line) ∧
  ∀ rows : List (List Char × Option Byte),
    (∀ row ∈ rows, LineMeans row.1 row.2 ∧ '\n' ∉ row.1) →
    (∀ s : State, hostLoadText (List.intercalate ['\n'] (rows.map Prod.fst)) s =
      hostLoad (rows.filterMap Prod.snd) s) ∧
    ∀ g : Vector Byte 7, (rows.filterMap Prod.snd).length ≤ 256 →
      (hostLoadText (List.intercalate ['\n'] (rows.map Prod.fst)) (State.resetWith g)).1 = .accepted ∧
      ∀ i, Memory.read
          (hostLoadText (List.intercalate ['\n'] (rows.map Prod.fst)) (State.resetWith g)).2.mem i =
        (rows.filterMap Prod.snd).getD i 0#8

/-- 41_load_and_output.md R117, the spec's decision D21 (log 15): an output byte is shown as the
shortest decimal form of its value. -/
def Obligations.OutputIsShownInShortestDecimal : Prop :=
  (∀ v : Byte, (renderValue v).foldl (fun n c => 10 * n + (c.toNat - 48)) 0 = v.toNat ∧
    (renderValue v).all (fun c => c.isDigit) = true ∧
    (v = 0#8 → renderValue v = ['0']) ∧ (v ≠ 0#8 → (renderValue v).head? ≠ some '0')) ∧
  ∀ (out : List Byte) (v : Byte), renderOut (out ++ [v]) = renderOut out ++ [renderValue v]

/-- 60_exceptions.md R161 and R163 (codes and layout are the spec's decision D9, log 17) and
70_reset_and_hazards.md R204: the host reads a fault in R161's codes, with `pc`, `addr`, the valid bits,
the recorded bytes (0 where not valid) and R163's code of the operand named; two records that read alike
are the same record; a state read replies every part of R21; and it changes no state. -/
def Obligations.HostReadsTheFaultInItsCodes : Prop :=
  (∀ r : FaultRecord, ((r.raw.kind.toNat, r.raw.sub.toNat) : Nat × Nat) =
    match r.kind with
    | .outOfBounds .fetchOpcode => (1, 1)
    | .outOfBounds .fetchOperand => (1, 2)
    | .outOfBounds .stackOverflow => (1, 3)
    | .outOfBounds .stackUnderflow => (1, 4)
    | .outOfBounds .dataAccess => (1, 5)
    | .illegalInstruction => (2, 0)
    | .invalidAluOperation => (3, 0)
    | .invalidRegister => (4, 0)
    | .loadError => (5, 0)) ∧
  (∀ r : FaultRecord, r.raw.pc = r.pc ∧ r.raw.addr = r.addr ∧
    r.raw.badOperand.toNat =
      match r.badOperand with
      | none => 0
      | some .operandA => 1
      | some .operandB => 2) ∧
  (∀ r : FaultRecord, (r.ir = none → r.raw.irValid = 0#1 ∧ r.raw.ir = 0#8) ∧
    ∀ b, r.ir = some b → r.raw.irValid = 1#1 ∧ r.raw.ir = b) ∧
  (∀ r : FaultRecord,
    (r.operands = none → r.raw.opsValid = 0#1 ∧ r.raw.operandA = 0#8 ∧ r.raw.operandB = 0#8) ∧
    ∀ a b, r.operands = some (a, b) →
      r.raw.opsValid = 1#1 ∧ r.raw.operandA = a ∧ r.raw.operandB = b) ∧
  Function.Injective FaultRecord.raw ∧
  ∀ s : State, ∃ v : CoreView, hostRequest .read s = (.view v, s) ∧
    v.regs = s.regs ∧ v.pc = s.pc ∧ v.ir = s.ir ∧ v.fl = s.fl ∧ v.mem = s.mem ∧
    v.halted = s.halted ∧ v.fault = s.fault.map FaultRecord.raw ∧ v.out = s.out

/-- 70_reset_and_hazards.md R205 and R201, 60_exceptions.md R169 (the spec's decision D13; log 10): a
text with a malformed line, or with more than 256 token lines, is a LoadError before the first step:
nothing is written, and no step changes anything from then on. Two points are the model's choice
(log 14): which lines are malformed rests on its white space, and at any other time a malformed text is
answered `refused`, and not LoadError, and changes nothing. -/
def Obligations.MalformedProgramTextBarsEveryStep : Prop :=
  (∀ (text : List Char) (s : State), (∃ line ∈ splitLines text, LineMalformed line) →
    (s.loadPhase = .beforeFirstStep →
      hostLoadText text s = (.loadError, { s with loadPhase := .loadFailed }) ∧
      ∀ n, runFor n (hostLoadText text s).2 = (hostLoadText text s).2) ∧
    (s.loadPhase ≠ .beforeFirstStep → hostLoadText text s = (.refused, s))) ∧
  ∀ (rows : List (List Char × Option Byte)) (s : State),
    (∀ row ∈ rows, LineMeans row.1 row.2 ∧ '\n' ∉ row.1) →
    256 < (rows.filterMap Prod.snd).length → s.loadPhase = .beforeFirstStep →
    hostLoadText (List.intercalate ['\n'] (rows.map Prod.fst)) s =
        (.loadError, { s with loadPhase := .loadFailed }) ∧
      ∀ n, runFor n { s with loadPhase := .loadFailed } = { s with loadPhase := .loadFailed }
end

