-- ==== Sys2Proof/Laws/Decode.lean ====
section
/-! SUPPORT. The decoder, one lemma per function: which opcode a byte selects, and what `decodeWith`
makes of the bytes after it. -/

namespace Sys2Proof

theorem Op.mem_all (o : Op) : o ∈ Op.all := by cases o <;> decide

theorem opcodeOfWith_some {m : Op → Byte} {b : Byte} {o : Op} (h : opcodeOfWith m b = some o) :
    m o = b := by
  have := List.find?_some h
  simpa using this

theorem opcodeOfWith_self {m : Op → Byte} (hm : Function.Injective m) (o : Op) :
    opcodeOfWith m (m o) = some o := by
  cases h : opcodeOfWith m (m o) with
  | none =>
    have := List.find?_eq_none.1 h o (Op.mem_all o)
    simp at this
  | some o' => exact congrArg some (hm (opcodeOfWith_some h))

/-- The thirteen opcode values of R72 are distinct. -/
theorem opcodeByte_inj {a b : Op} (h : opcodeByte a = opcodeByte b) : a = b := by
  cases a <;> cases b <;> first | rfl | exact absurd h (by decide)

theorem opcodeOf_opcodeByte (o : Op) : opcodeOf (opcodeByte o) = some o :=
  opcodeOfWith_self (fun _ _ h => opcodeByte_inj h) o

theorem opcodeOf_some {b : Byte} {o : Op} (h : opcodeOf b = some o) : b = opcodeByte o :=
  (opcodeOfWith_some h).symm

/-- With both operand bytes at hand a legal opcode always decodes, to its instruction on them. -/
theorem decode_three {b a c : Byte} {o : Op} (h : opcodeOf b = some o) :
    ∃ rest, decode [b, a, c] = .ok (o.instr a c, rest) := by
  have h' : opcodeOfWith opcodeByte b = some o := h
  cases o <;> simp [decode, decodeWith, h', Op.format, Op.instr]

/-- With both operand bytes at hand the only rejection is an illegal opcode (R76). -/
theorem decode_three_illegal {b a c : Byte} (h : opcodeOf b = none) :
    decode [b, a, c] = .error (.illegalOpcode b) := by
  have h' : opcodeOfWith opcodeByte b = none := h
  simp [decode, decodeWith, h']

end Sys2Proof
end

