-- ==== Sys2Proof/Laws/State.lean ====
section
/-! SUPPORT. One lemma per field per update of the state: what each named operation of Ops.lean
writes and what it leaves. -/

namespace Sys2Proof.Machine

/-! ### Registers -/

@[simp] theorem reg_setReg (s : State) (r q : RegIdx) (v : Nat) :
    (s.setReg r v).reg q = if r = q then wrap8 v else s.reg q := by
  simp [State.setReg, State.reg, Vector.getElem_set, Fin.ext_iff]

@[simp] theorem reg_mk (regs pc ir fl mem halted fault out latch loadPhase) (q : RegIdx) :
    (State.mk regs pc ir fl mem halted fault out latch loadPhase).reg q = regs[q] := rfl

theorem reg_congr {s t : State} (h : t.regs = s.regs) (q : RegIdx) : t.reg q = s.reg q := by
  simp [State.reg, h]

theorem sp_eq (s : State) : s.sp = s.reg 7 := rfl

theorem sp_congr {s t : State} (h : t.regs = s.regs) : t.sp = s.sp := reg_congr h _

@[simp] theorem sp_setReg (s : State) (r : RegIdx) (v : Nat) :
    (s.setReg r v).sp = if r = 7 then wrap8 v else s.sp := by
  simp [sp_eq]

@[simp] theorem reg_decSp (s : State) (q : RegIdx) :
    s.decSp.reg q = if q = 7 then wrap8 (s.sp.toNat - 1) else s.reg q := by
  simp [State.decSp, Config.spIndex, eq_comm]

@[simp] theorem reg_incSp (s : State) (q : RegIdx) :
    s.incSp.reg q = if q = 7 then wrap8 (s.sp.toNat + 1) else s.reg q := by
  simp [State.incSp, Config.spIndex, eq_comm]

@[simp] theorem sp_decSp (s : State) : s.decSp.sp = wrap8 (s.sp.toNat - 1) := by
  simp [sp_eq]

@[simp] theorem sp_incSp (s : State) : s.incSp.sp = wrap8 (s.sp.toNat + 1) := by
  simp [sp_eq]

/-- After a decrement from a nonzero SP, SP is exactly one lower (R131). -/
theorem sp_decSp_toNat (s : State) : s.decSp.sp.toNat = s.sp.toNat - 1 := by
  have := s.sp.isLt
  simp only [sp_decSp, toNat_wrap8]
  omega

/-! ### setReg -/

@[simp] theorem setReg_pc (s : State) (r : RegIdx) (v : Nat) :
    (s.setReg r v).pc = s.pc := rfl

@[simp] theorem setReg_ir (s : State) (r : RegIdx) (v : Nat) :
    (s.setReg r v).ir = s.ir := rfl

@[simp] theorem setReg_fl (s : State) (r : RegIdx) (v : Nat) :
    (s.setReg r v).fl = s.fl := rfl

@[simp] theorem setReg_mem (s : State) (r : RegIdx) (v : Nat) :
    (s.setReg r v).mem = s.mem := rfl

@[simp] theorem setReg_halted (s : State) (r : RegIdx) (v : Nat) :
    (s.setReg r v).halted = s.halted := rfl

@[simp] theorem setReg_fault (s : State) (r : RegIdx) (v : Nat) :
    (s.setReg r v).fault = s.fault := rfl

@[simp] theorem setReg_out (s : State) (r : RegIdx) (v : Nat) :
    (s.setReg r v).out = s.out := rfl

@[simp] theorem setReg_latch (s : State) (r : RegIdx) (v : Nat) :
    (s.setReg r v).latch = s.latch := rfl

@[simp] theorem setReg_loadPhase (s : State) (r : RegIdx) (v : Nat) :
    (s.setReg r v).loadPhase = s.loadPhase := rfl

/-! ### decSp -/

@[simp] theorem decSp_pc (s : State) :
    s.decSp.pc = s.pc := rfl

@[simp] theorem decSp_ir (s : State) :
    s.decSp.ir = s.ir := rfl

@[simp] theorem decSp_fl (s : State) :
    s.decSp.fl = s.fl := rfl

@[simp] theorem decSp_mem (s : State) :
    s.decSp.mem = s.mem := rfl

@[simp] theorem decSp_halted (s : State) :
    s.decSp.halted = s.halted := rfl

@[simp] theorem decSp_fault (s : State) :
    s.decSp.fault = s.fault := rfl

@[simp] theorem decSp_out (s : State) :
    s.decSp.out = s.out := rfl

@[simp] theorem decSp_latch (s : State) :
    s.decSp.latch = s.latch := rfl

@[simp] theorem decSp_loadPhase (s : State) :
    s.decSp.loadPhase = s.loadPhase := rfl

/-! ### incSp -/

@[simp] theorem incSp_pc (s : State) :
    s.incSp.pc = s.pc := rfl

@[simp] theorem incSp_ir (s : State) :
    s.incSp.ir = s.ir := rfl

@[simp] theorem incSp_fl (s : State) :
    s.incSp.fl = s.fl := rfl

@[simp] theorem incSp_mem (s : State) :
    s.incSp.mem = s.mem := rfl

@[simp] theorem incSp_halted (s : State) :
    s.incSp.halted = s.halted := rfl

@[simp] theorem incSp_fault (s : State) :
    s.incSp.fault = s.fault := rfl

@[simp] theorem incSp_out (s : State) :
    s.incSp.out = s.out := rfl

@[simp] theorem incSp_latch (s : State) :
    s.incSp.latch = s.latch := rfl

@[simp] theorem incSp_loadPhase (s : State) :
    s.incSp.loadPhase = s.loadPhase := rfl

/-! ### setPc -/

@[simp] theorem setPc_regs (s : State) (n : Nat) :
    (s.setPc n).regs = s.regs := rfl

@[simp] theorem setPc_ir (s : State) (n : Nat) :
    (s.setPc n).ir = s.ir := rfl

@[simp] theorem setPc_fl (s : State) (n : Nat) :
    (s.setPc n).fl = s.fl := rfl

@[simp] theorem setPc_mem (s : State) (n : Nat) :
    (s.setPc n).mem = s.mem := rfl

@[simp] theorem setPc_halted (s : State) (n : Nat) :
    (s.setPc n).halted = s.halted := rfl

@[simp] theorem setPc_fault (s : State) (n : Nat) :
    (s.setPc n).fault = s.fault := rfl

@[simp] theorem setPc_out (s : State) (n : Nat) :
    (s.setPc n).out = s.out := rfl

@[simp] theorem setPc_latch (s : State) (n : Nat) :
    (s.setPc n).latch = s.latch := rfl

@[simp] theorem setPc_loadPhase (s : State) (n : Nat) :
    (s.setPc n).loadPhase = s.loadPhase := rfl

@[simp] theorem reg_setPc (s : State) (n : Nat) (q : RegIdx) :
    (s.setPc n).reg q = s.reg q := rfl

@[simp] theorem sp_setPc (s : State) (n : Nat) :
    (s.setPc n).sp = s.sp := rfl

/-! ### advance -/

@[simp] theorem advance_regs (s : State) (n : Nat) :
    (s.advance n).regs = s.regs := rfl

@[simp] theorem advance_ir (s : State) (n : Nat) :
    (s.advance n).ir = s.ir := rfl

@[simp] theorem advance_fl (s : State) (n : Nat) :
    (s.advance n).fl = s.fl := rfl

@[simp] theorem advance_mem (s : State) (n : Nat) :
    (s.advance n).mem = s.mem := rfl

@[simp] theorem advance_halted (s : State) (n : Nat) :
    (s.advance n).halted = s.halted := rfl

@[simp] theorem advance_fault (s : State) (n : Nat) :
    (s.advance n).fault = s.fault := rfl

@[simp] theorem advance_out (s : State) (n : Nat) :
    (s.advance n).out = s.out := rfl

@[simp] theorem advance_latch (s : State) (n : Nat) :
    (s.advance n).latch = s.latch := rfl

@[simp] theorem advance_loadPhase (s : State) (n : Nat) :
    (s.advance n).loadPhase = s.loadPhase := rfl

@[simp] theorem reg_advance (s : State) (n : Nat) (q : RegIdx) :
    (s.advance n).reg q = s.reg q := rfl

@[simp] theorem sp_advance (s : State) (n : Nat) :
    (s.advance n).sp = s.sp := rfl

/-! ### emit -/

@[simp] theorem emit_regs (s : State) (v : Byte) :
    (s.emit v).regs = s.regs := rfl

@[simp] theorem emit_pc (s : State) (v : Byte) :
    (s.emit v).pc = s.pc := rfl

@[simp] theorem emit_ir (s : State) (v : Byte) :
    (s.emit v).ir = s.ir := rfl

@[simp] theorem emit_fl (s : State) (v : Byte) :
    (s.emit v).fl = s.fl := rfl

@[simp] theorem emit_mem (s : State) (v : Byte) :
    (s.emit v).mem = s.mem := rfl

@[simp] theorem emit_halted (s : State) (v : Byte) :
    (s.emit v).halted = s.halted := rfl

@[simp] theorem emit_fault (s : State) (v : Byte) :
    (s.emit v).fault = s.fault := rfl

@[simp] theorem emit_latch (s : State) (v : Byte) :
    (s.emit v).latch = s.latch := rfl

@[simp] theorem emit_loadPhase (s : State) (v : Byte) :
    (s.emit v).loadPhase = s.loadPhase := rfl

@[simp] theorem reg_emit (s : State) (v : Byte) (q : RegIdx) :
    (s.emit v).reg q = s.reg q := rfl

@[simp] theorem sp_emit (s : State) (v : Byte) :
    (s.emit v).sp = s.sp := rfl

/-! ### beginStep -/

@[simp] theorem beginStep_regs (s : State) :
    s.beginStep.regs = s.regs := rfl

@[simp] theorem beginStep_pc (s : State) :
    s.beginStep.pc = s.pc := rfl

@[simp] theorem beginStep_ir (s : State) :
    s.beginStep.ir = s.ir := rfl

@[simp] theorem beginStep_fl (s : State) :
    s.beginStep.fl = s.fl := rfl

@[simp] theorem beginStep_mem (s : State) :
    s.beginStep.mem = s.mem := rfl

@[simp] theorem beginStep_halted (s : State) :
    s.beginStep.halted = s.halted := rfl

@[simp] theorem beginStep_fault (s : State) :
    s.beginStep.fault = s.fault := rfl

@[simp] theorem beginStep_out (s : State) :
    s.beginStep.out = s.out := rfl

@[simp] theorem reg_beginStep (s : State) (q : RegIdx) :
    s.beginStep.reg q = s.reg q := rfl

@[simp] theorem sp_beginStep (s : State) :
    s.beginStep.sp = s.sp := rfl

/-! ### endStep -/

@[simp] theorem endStep_regs (s : State) :
    s.endStep.regs = s.regs := rfl

@[simp] theorem endStep_pc (s : State) :
    s.endStep.pc = s.pc := rfl

@[simp] theorem endStep_ir (s : State) :
    s.endStep.ir = s.ir := rfl

@[simp] theorem endStep_fl (s : State) :
    s.endStep.fl = s.fl := rfl

@[simp] theorem endStep_mem (s : State) :
    s.endStep.mem = s.mem := rfl

@[simp] theorem endStep_halted (s : State) :
    s.endStep.halted = s.halted := rfl

@[simp] theorem endStep_fault (s : State) :
    s.endStep.fault = s.fault := rfl

@[simp] theorem endStep_out (s : State) :
    s.endStep.out = s.out := rfl

@[simp] theorem endStep_loadPhase (s : State) :
    s.endStep.loadPhase = s.loadPhase := rfl

@[simp] theorem reg_endStep (s : State) (q : RegIdx) :
    s.endStep.reg q = s.reg q := rfl

@[simp] theorem sp_endStep (s : State) :
    s.endStep.sp = s.sp := rfl

/-! ### raise -/

@[simp] theorem raise_regs (k : FaultKind) (a : Nat) (b : Option OperandPos) (s : State) :
    (raise k a b s).regs = s.regs := rfl

@[simp] theorem raise_pc (k : FaultKind) (a : Nat) (b : Option OperandPos) (s : State) :
    (raise k a b s).pc = s.pc := rfl

@[simp] theorem raise_ir (k : FaultKind) (a : Nat) (b : Option OperandPos) (s : State) :
    (raise k a b s).ir = s.ir := rfl

@[simp] theorem raise_fl (k : FaultKind) (a : Nat) (b : Option OperandPos) (s : State) :
    (raise k a b s).fl = s.fl := rfl

@[simp] theorem raise_mem (k : FaultKind) (a : Nat) (b : Option OperandPos) (s : State) :
    (raise k a b s).mem = s.mem := rfl

@[simp] theorem raise_halted (k : FaultKind) (a : Nat) (b : Option OperandPos) (s : State) :
    (raise k a b s).halted = s.halted := rfl

@[simp] theorem raise_out (k : FaultKind) (a : Nat) (b : Option OperandPos) (s : State) :
    (raise k a b s).out = s.out := rfl

@[simp] theorem raise_latch (k : FaultKind) (a : Nat) (b : Option OperandPos) (s : State) :
    (raise k a b s).latch = s.latch := rfl

@[simp] theorem raise_loadPhase (k : FaultKind) (a : Nat) (b : Option OperandPos) (s : State) :
    (raise k a b s).loadPhase = s.loadPhase := rfl

@[simp] theorem reg_raise (k : FaultKind) (a : Nat) (b : Option OperandPos) (s : State) (q : RegIdx) :
    (raise k a b s).reg q = s.reg q := rfl

@[simp] theorem sp_raise (k : FaultKind) (a : Nat) (b : Option OperandPos) (s : State) :
    (raise k a b s).sp = s.sp := rfl

/-! ### The fields written -/

@[simp] theorem setPc_pc (s : State) (n : Nat) : (s.setPc n).pc = BitVec.ofNat 9 n := rfl

@[simp] theorem advance_pc (s : State) (n : Nat) :
    (s.advance n).pc = BitVec.ofNat 9 (s.pc.toNat + n) := rfl

/-- `pc + n` is exact while it fits 9 bits (R28). -/
theorem advance_pc_toNat (s : State) (n : Nat) (h : s.pc.toNat + n < 512) :
    (s.advance n).pc.toNat = s.pc.toNat + n := by
  simp only [advance_pc, BitVec.toNat_ofNat]
  omega

/-- A register or memory value is always a target in 0 to 255 (R28). -/
theorem setPc_pc_toNat (s : State) (v : Byte) : (s.setPc v.toNat).pc.toNat = v.toNat := by
  have := v.isLt
  simp only [setPc_pc, BitVec.toNat_ofNat]
  omega

@[simp] theorem emit_out (s : State) (v : Byte) : (s.emit v).out = s.out ++ [v] := rfl

@[simp] theorem beginStep_latch (s : State) : s.beginStep.latch = none := rfl

@[simp] theorem beginStep_loadPhase (s : State) : s.beginStep.loadPhase = .stepped := rfl

@[simp] theorem endStep_latch (s : State) : s.endStep.latch = none := rfl

/-- The record a raise writes (R163, R164). -/
theorem raise_fault (k : FaultKind) (a : Nat) (b : Option OperandPos) (s : State) :
    (raise k a b s).fault = some
      { kind := k, pc := s.pc
        ir := if k = .outOfBounds .fetchOpcode then none else some s.ir
        operands := s.latch, addr := BitVec.ofNat 9 a, badOperand := b } := rfl

/-- Two states with equal fields are equal, register by register. -/
theorem regs_ext {s t : State} (h : ∀ r : RegIdx, t.reg r = s.reg r) : t.regs = s.regs := by
  apply Vector.ext
  intro i hi
  exact h ⟨i, hi⟩

end Sys2Proof.Machine
end

