-- ==== Sys2Proof/Laws/Memory.lean ====
section
/-! SUPPORT. The laws of memory: read after write, and every operation keeps the canonical form. -/

namespace Sys2Proof.Machine

/-- All listed addresses lie above `a`. -/
abbrev Above (a : Nat) (m : Memory) : Prop := ∀ c ∈ m, a < c.1

theorem Memory.wf_cons (k : Nat) (v : Byte) (m : Memory) :
    Memory.wf ((k, v) :: m) = true ↔
      k < 256 ∧ v ≠ 0#8 ∧ Above k m ∧ Memory.wf m = true := by
  simp only [Memory.wf, Bool.and_eq_true, decide_eq_true_eq, List.all_eq_true, and_assoc]
  exact Iff.rfl

@[simp] theorem Memory.read_nil (a : Nat) : Memory.read [] a = 0#8 := rfl

theorem Memory.read_cons (k : Nat) (v : Byte) (m : Memory) (a : Nat) :
    Memory.read ((k, v) :: m) a = if k = a then v else Memory.read m a := rfl

theorem Memory.read_of_above {a : Nat} {m : Memory} (h : Above a m) {b : Nat} (hb : b ≤ a) :
    Memory.read m b = 0#8 := by
  induction m with
  | nil => rfl
  | cons c m ih =>
    obtain ⟨k, v⟩ := c
    have hk : a < k := h (k, v) (by simp)
    rw [Memory.read_cons, if_neg (by omega)]
    exact ih fun c hc => h c (by simp [hc])

/-- A put lists nothing but the old cells and the new one. -/
theorem Memory.mem_put {m : Memory} {a : Nat} {v : Byte} {c : Host.Cell}
    (h : c ∈ Memory.put m a v) : c ∈ m ∨ c = (a, v) := by
  induction m with
  | nil =>
    unfold Memory.put at h
    split at h <;> simp_all
  | cons d m ih =>
    simp only [Memory.put] at h
    split_ifs at h <;> simp only [List.mem_cons] at h ⊢ <;> tauto

theorem Memory.put_above {a : Nat} {v : Byte} {k : Nat} {m : Memory} (h : Above k m) (hk : k < a) :
    Above k (Memory.put m a v) := by
  intro c hc
  rcases Memory.mem_put hc with hc | rfl
  · exact h c hc
  · exact hk

theorem Memory.put_wf {m : Memory} (hm : Memory.wf m = true) {a : Nat} (ha : a < 256) (v : Byte) :
    Memory.wf (Memory.put m a v) = true := by
  induction m with
  | nil =>
    unfold Memory.put
    split
    · rfl
    · rename_i hv
      exact (Memory.wf_cons _ _ _).2 ⟨ha, hv, by simp [Above], rfl⟩
  | cons c m ih =>
    obtain ⟨k, w⟩ := c
    obtain ⟨hk, hw, hab, hwf⟩ := (Memory.wf_cons _ _ _).1 hm
    simp only [Memory.put]
    split_ifs with h1 h2 h3 h4
    · exact hm
    · refine (Memory.wf_cons _ _ _).2 ⟨ha, h2, ?_, hm⟩
      intro c hc
      rcases List.mem_cons.1 hc with rfl | hc
      · exact h1
      · have := hab c hc
        omega
    · exact hwf
    · subst h3
      exact (Memory.wf_cons _ _ _).2 ⟨hk, h4, hab, hwf⟩
    · exact (Memory.wf_cons _ _ _).2 ⟨hk, hw, Memory.put_above hab (by omega), ih hwf⟩

theorem Memory.read_put {m : Memory} (hm : Memory.wf m = true) (a b : Nat) (v : Byte) :
    Memory.read (Memory.put m a v) b = if b = a then v else Memory.read m b := by
  induction m with
  | nil =>
    unfold Memory.put
    split
    · rename_i hv
      split
      · exact hv.symm
      · rfl
    · simp [Memory.read_cons, eq_comm]
  | cons c m ih =>
    obtain ⟨k, w⟩ := c
    obtain ⟨hk, hw, hab, hwf⟩ := (Memory.wf_cons _ _ _).1 hm
    have ih := ih hwf
    simp only [Memory.put]
    split_ifs with h1 h2 h3 h4 h5 h6 h7
    · subst h3
      rw [Memory.read_cons, if_neg (by omega), Memory.read_of_above hab (by omega)]
      exact h2.symm
    · rfl
    · subst h4
      rw [Memory.read_cons, if_pos rfl]
    · rw [Memory.read_cons, if_neg (Ne.symm h4)]
    · subst h5
      rw [h7, Memory.read_of_above hab (by omega)]
      exact h6.symm
    · subst h5
      rw [Memory.read_cons, if_neg (Ne.symm h7)]
    · rw [Memory.read_cons, if_pos (by omega)]
    · rw [Memory.read_cons, Memory.read_cons, if_neg (by omega), if_neg (by omega)]
    · subst_vars
      rw [Memory.read_cons, ih, if_neg (by omega), if_pos rfl]
    · rw [Memory.read_cons, Memory.read_cons, ih]
      simp [*]

/-- Every write keeps the canonical form. -/
theorem Memory.write_wf {m : Memory} (hm : Memory.wf m = true) (a : Nat) (v : Byte) :
    Memory.wf (Memory.write m a v) = true := by
  unfold Memory.write
  split
  · rename_i h
    exact Memory.put_wf hm h v
  · exact hm

/-- A read after a write: the cell written gives the value written, every other cell is as before. -/
theorem Memory.read_write {m : Memory} (hm : Memory.wf m = true) {a : Nat} (ha : a < 256) (b : Nat)
    (v : Byte) :
    Memory.read (Memory.write m a v) b = if b = a then v else Memory.read m b := by
  rw [Memory.write, if_pos (by simpa [Config.memSize] using ha)]
  exact Memory.read_put hm a b v

theorem Memory.writeBytes_wf (vs : List Byte) {m : Memory} (hm : Memory.wf m = true) (a : Nat) :
    Memory.wf (Memory.writeBytes m a vs) = true := by
  induction vs generalizing m a with
  | nil => exact hm
  | cons v vs ih => exact ih (Memory.write_wf hm a v) (a + 1)

/-- Bytes written from `a` read back in order; every cell outside them is as before. -/
theorem Memory.read_writeBytes (vs : List Byte) {m : Memory} (hm : Memory.wf m = true) (a b : Nat)
    (h : a + vs.length ≤ 256) :
    Memory.read (Memory.writeBytes m a vs) b =
      if a ≤ b then vs.getD (b - a) (Memory.read m b) else Memory.read m b := by
  induction vs generalizing m a with
  | nil => simp [Memory.writeBytes]
  | cons v vs ih =>
    rw [List.length_cons] at h
    have hr := Memory.read_write hm (a := a) (by omega) b v
    rw [Memory.writeBytes, ih (Memory.write_wf hm a v) (a + 1) (by omega), hr]
    rcases Nat.lt_trichotomy b a with hb | rfl | hb
    · rw [if_neg (by omega), if_neg (by omega), if_neg (by omega)]
    · simp
    · rw [if_pos (by omega), if_neg (by omega), if_pos (by omega)]
      obtain ⟨d, rfl⟩ : ∃ d, b = a + 1 + d := ⟨b - (a + 1), by omega⟩
      rw [show a + 1 + d - (a + 1) = d by omega, show a + 1 + d - a = d + 1 by omega]
      simp

/-- No address above 255 has a cell. -/
theorem Memory.read_ge {m : Memory} (hm : Memory.wf m = true) {a : Nat} (ha : 256 ≤ a) :
    Memory.read m a = 0#8 := by
  induction m with
  | nil => rfl
  | cons c m ih =>
    obtain ⟨k, v⟩ := c
    obtain ⟨hk, -, -, hwf⟩ := (Memory.wf_cons _ _ _).1 hm
    rw [Memory.read_cons, if_neg (by omega)]
    exact ih hwf

/-! ### MemRead and MemWrite -/

theorem memRead_lt (s : State) {a : Nat} (h : a < 256) :
    s.memRead a = some (Memory.read s.mem a) := if_pos h

theorem memRead_ge (s : State) {a : Nat} (h : 256 ≤ a) : s.memRead a = none :=
  if_neg (by simpa [Config.memSize] using h)

theorem memRead_byte (s : State) (b : Byte) :
    s.memRead b.toNat = some (Memory.read s.mem b.toNat) := memRead_lt s b.isLt

theorem memWrite_lt (s : State) {a : Nat} (h : a < 256) (v : Nat) :
    s.memWrite a v = some { s with mem := Memory.write s.mem a (wrap8 v) } := if_pos h

theorem memWrite_ge (s : State) {a : Nat} (h : 256 ≤ a) (v : Nat) : s.memWrite a v = none :=
  if_neg (by simpa [Config.memSize] using h)

theorem memWrite_byte (s : State) (b : Byte) (v : Nat) :
    s.memWrite b.toNat v = some { s with mem := Memory.write s.mem b.toNat (wrap8 v) } :=
  memWrite_lt s b.isLt v

end Sys2Proof.Machine
end

