-- ==== Sys2Proof/Laws/Ops.lean ====
section
/-! SUPPORT. What each shared operation answers, said once: register operands, the guarded push and
pop, and raising a fault. -/

namespace Sys2Proof.Machine

theorem regIndex_legal {b : Byte} {r : RegIdx} (h : b.toNat = r.val) : regIndex? b = some r := by
  have := r.isLt
  simp [regIndex?, h]

theorem regIndex_illegal {b : Byte} (h : 8 ≤ b.toNat) : regIndex? b = none :=
  dif_neg (by omega)

theorem withReg_legal {b : Byte} {r : RegIdx} (h : b.toNat = r.val) (pos : OperandPos) (s : State)
    (k : RegIdx → Result) : withReg pos b s k = k r := by
  simp [withReg, regIndex_legal h]

theorem withReg_illegal {b : Byte} (h : 8 ≤ b.toNat) (pos : OperandPos) (s : State)
    (k : RegIdx → Result) :
    withReg pos b s k = .next (raise .invalidRegister 0 (some pos) s) := by
  simp [withReg, regIndex_illegal h]

/-- A push with SP = 0 raises StackOverflow and writes nothing else (R131). -/
theorem pushThen_full {s : State} (h : s.sp = 0#8) (v : State → Nat) (k : State → State) :
    pushThen v k s = .next (raise (.outOfBounds .stackOverflow) s.sp.toNat none s) := if_pos h

/-- A push with SP ≠ 0 writes the cell at the decremented SP and goes on (R130). -/
theorem pushThen_room {s : State} (h : s.sp ≠ 0#8) (v : State → Nat) (k : State → State) :
    pushThen v k s = .next
      (k { s.decSp with mem := Memory.write s.mem s.decSp.sp.toNat (wrap8 (v s.decSp)) }) := by
  rw [pushThen, if_neg h, memWrite_byte]
  rfl

/-- A pop with SP at or above `base` raises StackUnderflow and writes nothing else (R132). -/
theorem popThen_empty {base : Nat} {s : State} (h : base ≤ s.sp.toNat) (k : Byte → State → State) :
    popThen base k s = .next (raise (.outOfBounds .stackUnderflow) s.sp.toNat none s) := if_pos h

/-- A pop with SP below `base` reads the cell at SP and goes on (R130). -/
theorem popThen_item {base : Nat} {s : State} (h : s.sp.toNat < base) (k : Byte → State → State) :
    popThen base k s = .next (k (Memory.read s.mem s.sp.toNat) s) := by
  rw [popThen, if_neg (by omega), memRead_byte]

end Sys2Proof.Machine
end

