-- ==== Sys2Proof/Laws/Exec.lean ====
section
/-! SUPPORT. What a handler can do, said once for all instructions: `exec_eq` gives `exec i s` as
one next state, the fault of `handlerFault` if there is one, else the effect `completed`. -/

namespace Sys2Proof.Machine

/-- The first operand byte of an instruction, 0 where it has none. -/
def operandA (i : Instr) : Byte := i.operandBytes.getD 0 0#8

/-- The second operand byte of an instruction, 0 where it has none. -/
def operandB (i : Instr) : Byte := i.operandBytes.getD 1 0#8

/-- The fault a handler raises, with the address and the operand it records: the first that applies
in the order of R172. -/
def handlerFault (i : Instr) (s : State) : Option (FaultKind × Nat × Option OperandPos) :=
  if Op.usesA s.fl i.op ∧ 8 ≤ (operandA i).toNat then some (.invalidRegister, 0, some .operandA)
  else if Op.usesB i.op ∧ 8 ≤ (operandB i).toNat then some (.invalidRegister, 0, some .operandB)
  else if Op.pushes i.op ∧ s.sp = 0#8 then some (.outOfBounds .stackOverflow, s.sp.toNat, none)
  else if Op.pops i.op ∧ Config.stackBase ≤ s.sp.toNat then
    some (.outOfBounds .stackUnderflow, s.sp.toNat, none)
  else none

/-- The state after a push of the value `v` (R130). -/
def pushed (s : State) (v : Nat) : State :=
  { s.decSp with mem := Memory.write s.mem s.decSp.sp.toNat (wrap8 v) }

/-- The state a handler leaves where it raises no fault (the instruction rules R110 to R153). -/
def completed (i : Instr) (s : State) : State :=
  match i with
  | .ldi a imm => (s.setReg (operandReg a) imm.toNat).advance 3
  | .prn a => (s.emit (s.reg (operandReg a))).advance 2
  | .add a b =>
    (s.setReg (operandReg a) ((s.reg (operandReg a)).toNat + (s.reg (operandReg b)).toNat)).advance 3
  | .mul a b =>
    (s.setReg (operandReg a) ((s.reg (operandReg a)).toNat * (s.reg (operandReg b)).toNat)).advance 3
  | .cmp a b =>
    State.advance { s with fl := equalFlag (s.reg (operandReg a)) (s.reg (operandReg b)) } 3
  | .push a => (pushed s (s.decSp.reg (operandReg a)).toNat).advance 2
  | .pop a =>
    (s.setReg (operandReg a) (Memory.read s.mem s.sp.toNat).toNat).incSp.advance 2
  | .call a => (pushed s (s.pc.toNat + 2)).setPc (s.decSp.reg (operandReg a)).toNat
  | .ret => (s.setPc (Memory.read s.mem s.sp.toNat).toNat).incSp
  | .jmp a => s.setPc (s.reg (operandReg a)).toNat
  | .jeq a => if s.fl then s.setPc (s.reg (operandReg a)).toNat else s.advance 2
  | .jne a => if s.fl then s.advance 2 else s.setPc (s.reg (operandReg a)).toNat
  | .hlt => { s with halted := true }

theorem operandReg_val {b : Byte} (h : b.toNat < 8) : b.toNat = (operandReg b).val :=
  (Nat.mod_eq_of_lt h).symm

theorem operandReg_eq {b : Byte} {r : RegIdx} (h : b.toNat = r.val) : operandReg b = r := by
  apply Fin.ext
  simp only [operandReg, h]
  exact Nat.mod_eq_of_lt r.isLt

/-- The outcome of a handler, given its fault and its effect. -/
def outcomeOf (i : Instr) (s : State) : State :=
  match handlerFault i s with
  | some (k, addr, bad) => raise k addr bad s
  | none => completed i s

theorem withReg_eq (pos : OperandPos) (b : Byte) (s : State) (k : RegIdx → Result) :
    withReg pos b s k =
      if 8 ≤ b.toNat then .next (raise .invalidRegister 0 (some pos) s) else k (operandReg b) := by
  split
  · exact withReg_illegal ‹_› pos s k
  · exact withReg_legal (operandReg_val (by omega)) pos s k

theorem pushThen_eq (v : State → Nat) (k : State → State) (s : State) :
    pushThen v k s =
      if s.sp = 0#8 then .next (raise (.outOfBounds .stackOverflow) s.sp.toNat none s)
      else .next (k (pushed s (v s.decSp))) := by
  split
  · exact pushThen_full ‹_› v k
  · exact pushThen_room ‹_› v k

theorem popThen_eq (base : Nat) (k : Byte → State → State) (s : State) :
    popThen base k s =
      if base ≤ s.sp.toNat then .next (raise (.outOfBounds .stackUnderflow) s.sp.toNat none s)
      else .next (k (Memory.read s.mem s.sp.toNat) s) := by
  split
  · exact popThen_empty ‹_› k
  · exact popThen_item (by omega) k

/-- A meaning over an ALU operation, case by case. -/
theorem aluStep_eq (op : AluOp) (a b : Byte) (s : State) :
    aluStep op a b s =
      if 8 ≤ a.toNat then .next (raise .invalidRegister 0 (some .operandA) s)
      else if 8 ≤ b.toNat then .next (raise .invalidRegister 0 (some .operandB) s)
      else
        match alu op (operandReg a) (operandReg b) s.regs s.fl with
        | .ok (regs, fl) => .next (State.advance { s with regs := regs, fl := fl } 3)
        | .error k => .next (raise k 0 none s) := by
  rw [aluStep, withRegs, withReg_eq]
  split
  · rfl
  · exact withReg_eq .operandB b s _

theorem pushed_reg (s : State) (v : Nat) (r : RegIdx) : (pushed s v).reg r = s.decSp.reg r := rfl

/-- Every instruction answers a next state: its fault taken, or its effect. -/
theorem exec_eq (i : Instr) (s : State) : exec i s = .next (outcomeOf i s) := by
  cases i <;>
    simp only [exec, execLdi, execPrn, execAdd, execMul, execCmp, execPush, execPop, execPopWith,
      execCall, execRet, execRetWith, execJmp, execJeq, execJne, execHlt, jumpToReg, withReg_eq,
      aluStep_eq, pushThen_eq, popThen_eq, outcomeOf, handlerFault, completed, operandA, operandB,
      Instr.op, Instr.operandBytes, Op.usesA, Op.usesB, Op.pushes, Op.pops, jeqTaken, jneTaken,
      alu, List.getD_cons_zero, List.getD_cons_succ, Bool.false_eq_true, false_and, true_and,
      if_false]
  case jeq =>
    cases s.fl
    · simp
    · simp only [if_true, true_and]
      split_ifs <;> rfl
  case jne =>
    cases s.fl
    · simp only [Bool.not_false, if_true, Bool.false_eq_true, if_false, true_and]
      split_ifs <;> rfl
    · simp
  all_goals (try split_ifs) <;> rfl

/-- A handler either raises one of the faults of R171, or completes. -/
theorem exec_cases (i : Instr) (s : State) :
    (∃ k addr bad, handlerFault i s = some (k, addr, bad) ∧
      exec i s = .next (raise k addr bad s)) ∨
    (handlerFault i s = none ∧ exec i s = .next (completed i s)) := by
  rw [exec_eq, outcomeOf]
  cases h : handlerFault i s with
  | none => exact .inr ⟨rfl, rfl⟩
  | some x => exact .inl ⟨x.1, x.2.1, x.2.2, rfl, rfl⟩

/-- A handler with no fault completes. -/
theorem exec_completed {i : Instr} {s : State} (h : handlerFault i s = none) :
    exec i s = .next (completed i s) := by
  rw [exec_eq, outcomeOf, h]

/-- A handler with a fault raises it and does nothing else. -/
theorem exec_raises {i : Instr} {s : State} {k : FaultKind} {addr : Nat} {bad : Option OperandPos}
    (h : handlerFault i s = some (k, addr, bad)) : exec i s = .next (raise k addr bad s) := by
  rw [exec_eq, outcomeOf, h]

/-! ### What a completed instruction leaves unchanged -/

@[simp] theorem completed_ir (i : Instr) (s : State) : (completed i s).ir = s.ir := by
  cases i <;> simp [completed, pushed, apply_ite State.ir]

@[simp] theorem completed_fault (i : Instr) (s : State) : (completed i s).fault = s.fault := by
  cases i <;> simp [completed, pushed, apply_ite State.fault]

@[simp] theorem completed_latch (i : Instr) (s : State) : (completed i s).latch = s.latch := by
  cases i <;> simp [completed, pushed, apply_ite State.latch]

@[simp] theorem completed_loadPhase (i : Instr) (s : State) :
    (completed i s).loadPhase = s.loadPhase := by
  cases i <;> simp [completed, pushed, apply_ite State.loadPhase]

/-- Only HLT writes `halted` (R34). -/
theorem completed_halted (i : Instr) (s : State) :
    (completed i s).halted = if i = .hlt then true else s.halted := by
  cases i <;> simp [completed, pushed, apply_ite State.halted]

/-- Only PUSH and CALL write memory, one cell, at the decremented SP (R51). -/
theorem completed_mem (i : Instr) (s : State) :
    (completed i s).mem = s.mem ∨
      (Op.pushes i.op = true ∧ ∃ v, (completed i s).mem = Memory.write s.mem s.decSp.sp.toNat v) := by
  cases i <;>
    first
    | (left; simp [completed, apply_ite State.mem]; done)
    | (right; exact ⟨rfl, _, rfl⟩)

end Sys2Proof.Machine
end

