-- ==== Sys2Proof/Laws/PerInstr.lean ====
section
/-! SUPPORT. The family EncodingShape: what the encoding of an instruction looks like (R70, R71), one
lemma per constructor. -/

namespace Sys2Proof.Laws.EncodingShape

/-- The encoding begins with the opcode byte, has the length of the opcode's format, and its operand
bytes are those the opcode makes the instruction of. -/
def Statement (i : Instr) : Prop :=
  (encode i).head? = some (opcodeByte i.op) ∧ (encode i).length = i.op.format.length ∧
    i.op.instr (i.operandBytes.getD 0 0#8) (i.operandBytes.getD 1 0#8) = i

theorem ldi (a imm : Byte) : Statement (.ldi a imm) := ⟨rfl, rfl, rfl⟩
theorem prn (a : Byte) : Statement (.prn a) := ⟨rfl, rfl, rfl⟩
theorem add (a b : Byte) : Statement (.add a b) := ⟨rfl, rfl, rfl⟩
theorem mul (a b : Byte) : Statement (.mul a b) := ⟨rfl, rfl, rfl⟩
theorem cmp (a b : Byte) : Statement (.cmp a b) := ⟨rfl, rfl, rfl⟩
theorem push (a : Byte) : Statement (.push a) := ⟨rfl, rfl, rfl⟩
theorem pop (a : Byte) : Statement (.pop a) := ⟨rfl, rfl, rfl⟩
theorem call (a : Byte) : Statement (.call a) := ⟨rfl, rfl, rfl⟩
theorem ret : Statement .ret := ⟨rfl, rfl, rfl⟩
theorem jmp (a : Byte) : Statement (.jmp a) := ⟨rfl, rfl, rfl⟩
theorem jeq (a : Byte) : Statement (.jeq a) := ⟨rfl, rfl, rfl⟩
theorem jne (a : Byte) : Statement (.jne a) := ⟨rfl, rfl, rfl⟩
theorem hlt : Statement .hlt := ⟨rfl, rfl, rfl⟩

end Sys2Proof.Laws.EncodingShape
end

