-- ==== Sys2Proof/Laws/ProgramText.lean ====
section
/-! SUPPORT. The program text, said once: binary digits, blank and comment text, splitting at line
ends, reading lines, and what the host's two loads answer. -/

namespace Sys2Proof.Machine

/-! ### Binary digits -/

/-- Eight truth values as binary digits, most significant first. -/
def digits (bits : List Bool) : List Char := bits.map fun x => if x then '1' else '0'

theorem binaryLine_eq_digits (b : Byte) :
    binaryLine b = digits [b.getLsbD 7, b.getLsbD 6, b.getLsbD 5, b.getLsbD 4, b.getLsbD 3,
      b.getLsbD 2, b.getLsbD 1, b.getLsbD 0] := rfl

theorem binaryByte_digits (x₀ x₁ x₂ x₃ x₄ x₅ x₆ x₇ : Bool) :
    ∃ b, binaryByte (digits [x₀, x₁, x₂, x₃, x₄, x₅, x₆, x₇]) = some b ∧
      [b.getLsbD 7, b.getLsbD 6, b.getLsbD 5, b.getLsbD 4, b.getLsbD 3, b.getLsbD 2, b.getLsbD 1,
        b.getLsbD 0] = [x₀, x₁, x₂, x₃, x₄, x₅, x₆, x₇] := by
  refine ⟨_, if_pos ⟨rfl, List.all_eq_true.2 ?_⟩, ?_⟩
  · revert x₀ x₁ x₂ x₃ x₄ x₅ x₆ x₇
    decide +kernel
  · intro c hc
    obtain ⟨x, _, rfl⟩ := List.mem_map.1 hc
    cases x <;> rfl

/-- A list of binary digits comes from truth values. -/
theorem exists_digits {token : List Char}
    (h : token.all (fun c => decide (c = '0') || decide (c = '1')) = true) :
    ∃ bits : List Bool, bits.length = token.length ∧ token = digits bits := by
  induction token with
  | nil => exact ⟨[], rfl, rfl⟩
  | cons c cs ih =>
    simp only [List.all_cons, Bool.and_eq_true, Bool.or_eq_true, decide_eq_true_eq] at h
    obtain ⟨bits, hl, rfl⟩ := ih h.2
    rcases h.1 with rfl | rfl
    · exact ⟨false :: bits, by simp [hl], rfl⟩
    · exact ⟨true :: bits, by simp [hl], rfl⟩

/-- A token is the text of `b` exactly when it reads as `b`. -/
theorem binaryByte_iff {token : List Char} {b : Byte} :
    binaryByte token = some b ↔ token = binaryLine b := by
  constructor
  · intro h
    have hc : token.length = 8 ∧ token.all (fun c => decide (c = '0') || decide (c = '1')) := by
      by_contra hn
      rw [binaryByte, if_neg hn] at h
      cases h
    obtain ⟨bits, hl, rfl⟩ := exists_digits hc.2
    rw [hc.1] at hl
    match bits, hl with
    | [x₀, x₁, x₂, x₃, x₄, x₅, x₆, x₇], _ =>
      obtain ⟨b', hb, hx⟩ := binaryByte_digits x₀ x₁ x₂ x₃ x₄ x₅ x₆ x₇
      obtain rfl : b' = b := Option.some.inj (hb.symm.trans h)
      rw [binaryLine_eq_digits, hx]
  · rintro rfl
    obtain ⟨b', hb, hx⟩ := binaryByte_digits (b.getLsbD 7) (b.getLsbD 6) (b.getLsbD 5) (b.getLsbD 4)
      (b.getLsbD 3) (b.getLsbD 2) (b.getLsbD 1) (b.getLsbD 0)
    have : b' = b := by
      simp only [List.cons.injEq, and_true] at hx
      obtain ⟨h7, h6, h5, h4, h3, h2, h1, h0⟩ := hx
      apply BitVec.eq_of_getLsbD_eq
      intro i hi
      match i, hi with
      | 0, _ => exact h0
      | 1, _ => exact h1
      | 2, _ => exact h2
      | 3, _ => exact h3
      | 4, _ => exact h4
      | 5, _ => exact h5
      | 6, _ => exact h6
      | 7, _ => exact h7
    rw [binaryLine_eq_digits, hb, this]

/-- No digit is white space or starts a comment, and there are eight. -/
theorem binaryLine_char {b : Byte} {c : Char} (h : c ∈ binaryLine b) :
    isBlankChar c = false ∧ c ≠ '#' := by
  simp only [binaryLine, List.mem_map] at h
  obtain ⟨k, _, rfl⟩ := h
  split <;> decide

theorem newline_notMem_binaryLine (b : Byte) : '\n' ∉ binaryLine b := by
  intro h
  simp only [binaryLine, List.mem_map] at h
  obtain ⟨k, _, hk⟩ := h
  split at hk <;> exact absurd hk (by decide)

theorem binaryLine_cons (b : Byte) : ∃ c cs, binaryLine b = c :: cs := ⟨_, _, binaryLine_eq_digits b⟩

/-! ### White space and comments -/

/-- Dropping white space gives a text that is empty or starts with something else, and the text is
what was dropped and that. -/
theorem dropBlank_split (text : List Char) : ∃ blank, (∀ c ∈ blank, isBlankChar c = true) ∧
    text = blank ++ text.dropWhile isBlankChar :=
  ⟨text.takeWhile isBlankChar, fun _ hc => List.mem_takeWhile_imp hc,
    (List.takeWhile_append_dropWhile).symm⟩

theorem dropBlank_append {blank : List Char} (h : ∀ c ∈ blank, isBlankChar c = true)
    (rest : List Char) : (blank ++ rest).dropWhile isBlankChar = rest.dropWhile isBlankChar :=
  List.dropWhile_append_of_pos h

theorem blankOrComment_iff (text : List Char) :
    blankOrComment text = true ↔ LineMeans text none := by
  constructor
  · intro h
    obtain ⟨blank, hb, ht⟩ := dropBlank_split text
    refine ⟨blank, _, ht, hb, ?_⟩
    unfold blankOrComment at h
    split at h
    · exact .inl ‹_›
    · exact .inr (by simp_all)
  · rintro ⟨blank, comment, rfl, hb, hc⟩
    rw [blankOrComment, dropBlank_append hb]
    match comment, hc with
    | [], _ => rfl
    | c :: cs, .inr h =>
      obtain rfl : c = '#' := by simpa using h
      rfl

/-! ### Lines -/

/-- The token of a line: what stands between white space and the next white space. -/
theorem leadingToken_eq {before token rest : List Char} (hb : ∀ c ∈ before, isBlankChar c = true)
    (ht : ∀ c ∈ token, isBlankChar c = false) (hn : token ≠ [])
    (hr : ∀ c, rest.head? = some c → isBlankChar c = true) :
    leadingToken (before ++ token ++ rest) = token ∧ afterToken (before ++ token ++ rest) = rest := by
  have hd : (before ++ token ++ rest).dropWhile isBlankChar = token ++ rest := by
    rw [List.append_assoc, dropBlank_append hb]
    match token, hn with
    | c :: cs, _ => simp [ht c (by simp)]
  have hp : ∀ c ∈ token, (!isBlankChar c) = true := fun c hc => by rw [ht c hc]; rfl
  rw [leadingToken, afterToken, hd, List.takeWhile_append_of_pos hp, List.dropWhile_append_of_pos hp]
  match rest, hr with
  | [], _ => simp
  | c :: cs, hr => simp [hr c rfl]

/-- A line is its white space, its token and the rest. -/
theorem leadingToken_split (line : List Char) : ∃ before, (∀ c ∈ before, isBlankChar c = true) ∧
    line = before ++ leadingToken line ++ afterToken line := by
  obtain ⟨before, hb, hl⟩ := dropBlank_split line
  refine ⟨before, hb, ?_⟩
  rw [List.append_assoc, leadingToken, afterToken, List.takeWhile_append_dropWhile]
  exact hl

theorem parseLines_cons (line : List Char) (lines : List (List Char)) :
    parseLines (line :: lines) =
      match parseLine line, parseLines lines with
      | .ok none, .ok bytes => .ok bytes
      | .ok (some b), .ok bytes => .ok (b :: bytes)
      | .error k, _ => .error k
      | .ok _, .error k => .error k := rfl

/-- Reading a line answers a byte, nothing, or `LoadError`. -/
theorem parseLine_error {line : List Char} {k : FaultKind} (h : parseLine line = .error k) :
    k = .loadError := by
  unfold parseLine at h
  split at h
  · cases h
  · split at h
    · split at h
      · cases h
      · exact (Except.error.inj h).symm
    · exact (Except.error.inj h).symm

/-! ### Splitting at line ends -/

theorem splitLines_ne_nil (text : List Char) : splitLines text ≠ [] := by
  match text with
  | [] => simp [splitLines]
  | c :: cs =>
    simp only [splitLines]
    split
    · simp
    · split <;> simp

theorem splitLines_line {line : List Char} (h : '\n' ∉ line) : splitLines line = [line] := by
  induction line with
  | nil => rfl
  | cons c cs ih =>
    simp only [List.mem_cons, not_or] at h
    simp [splitLines, Ne.symm h.1, ih h.2]

theorem splitLines_append {line : List Char} (h : '\n' ∉ line) (text : List Char) :
    splitLines (line ++ '\n' :: text) = line :: splitLines text := by
  induction line with
  | nil => simp [splitLines]
  | cons c cs ih =>
    simp only [List.mem_cons, not_or] at h
    simp [splitLines, Ne.symm h.1, ih h.2]

/-! ### The host's loads -/

theorem hostLoad_fits {bytes : List Byte} {s : State} (hp : s.loadPhase = .beforeFirstStep)
    (hl : bytes.length ≤ 256) :
    hostLoad bytes s = (.accepted, { s with mem := Memory.writeBytes s.mem 0 bytes }) := by
  simp only [hostLoad, hp, Config.memSize, if_pos hl]

theorem hostLoad_tooLong {bytes : List Byte} {s : State} (hp : s.loadPhase = .beforeFirstStep)
    (hl : 256 < bytes.length) :
    hostLoad bytes s = (.loadError, { s with loadPhase := .loadFailed }) := by
  simp only [hostLoad, hp, Config.memSize, if_neg (Nat.not_le.2 hl)]

theorem hostLoadText_ok {text : List Char} {bytes : List Byte}
    (h : parseLines (splitLines text) = .ok bytes) (s : State) :
    hostLoadText text s = hostLoad bytes s := by
  simp only [hostLoadText, h]

theorem hostLoadText_error {text : List Char} {k : FaultKind}
    (h : parseLines (splitLines text) = .error k) (s : State) :
    hostLoadText text s =
      if s.loadPhase = .beforeFirstStep then (.loadError, { s with loadPhase := .loadFailed })
      else (.refused, s) := by
  simp only [hostLoadText, h]
  cases hp : s.loadPhase <;> simp

end Sys2Proof.Machine
end

