-- ==== Sys2Proof/Laws/Step.lean ====
section
/-! SUPPORT. What a step can do, said once: `step_ready_cases` lists the outcomes of a step that may
begin, in the order of R97. -/

namespace Sys2Proof.Machine

/-- The state a handler runs in: `ir` holds the opcode byte and the latches hold `latch`. -/
def fetched (s : State) (latch : Option (Byte × Byte)) : State :=
  { s with ir := s.byteAt 0, latch := latch, loadPhase := .stepped }

@[simp] theorem fetched_mk_fields (s : State) (l : Option (Byte × Byte)) :
    (fetched s l).regs = s.regs ∧ (fetched s l).pc = s.pc ∧ (fetched s l).fl = s.fl ∧
      (fetched s l).mem = s.mem ∧ (fetched s l).halted = s.halted ∧
      (fetched s l).fault = s.fault ∧ (fetched s l).out = s.out := ⟨rfl, rfl, rfl, rfl, rfl, rfl, rfl⟩

theorem ready_iff (s : State) :
    s.ready = true ↔ s.halted = false ∧ s.fault = none ∧ s.loadPhase ≠ .loadFailed := by
  simp [State.ready, and_assoc]

/-- A core that may not begin a step keeps its state (R98, R202). -/
theorem step_not_ready {s : State} (h : s.ready = false) : step s = .next s := by
  simp [step, h]

theorem fetchOpcode_in {s : State} (h : s.pc.toNat ≤ 255) :
    fetchOpcode s = .ok { s with ir := s.byteAt 0 } := by
  simp [fetchOpcode, memRead_lt s (show s.pc.toNat < 256 by omega), State.byteAt]

theorem fetchOpcode_out {s : State} (h : 255 < s.pc.toNat) :
    fetchOpcode s = .error (raise (.outOfBounds .fetchOpcode) s.pc.toNat none s) := by
  simp [fetchOpcode, memRead_ge s (show 256 ≤ s.pc.toNat by omega)]

theorem readOperands_in {s : State} (h : s.pc.toNat ≤ 253) :
    readOperands s = .ok { s with latch := some (s.byteAt 1, s.byteAt 2) } := by
  simp [readOperands, memRead_lt s (show s.pc.toNat + 1 < 256 by omega),
    memRead_lt s (show s.pc.toNat + 2 < 256 by omega), State.byteAt]

/-- At 254 and 255 the first operand read that fails is the one at address 256 (R93). -/
theorem readOperands_out {s : State} (h : 254 ≤ s.pc.toNat) (h' : s.pc.toNat ≤ 255) :
    readOperands s = .error (raise (.outOfBounds .fetchOperand) 256 none s) := by
  rcases Nat.lt_or_ge s.pc.toNat 255 with h1 | h1
  · have e : s.pc.toNat + 2 = 256 := by omega
    rw [readOperands, memRead_lt s (show s.pc.toNat + 1 < 256 by omega), e,
      memRead_ge s (Nat.le_refl 256)]
  · have e : s.pc.toNat + 1 = 256 := by omega
    rw [readOperands, e, memRead_ge s (Nat.le_refl 256)]

theorem step_fetch_fault {s : State} (hr : s.ready = true) (h : 255 < s.pc.toNat) :
    step s = .next
      (raise (.outOfBounds .fetchOpcode) s.pc.toNat none
        { s with latch := none, loadPhase := .stepped }) := by
  have h' : 255 < s.beginStep.pc.toNat := h
  simp only [step, hr, if_true, fetchInstr, fetchOpcode_out h']
  rfl

theorem step_hlt {s : State} (hr : s.ready = true) (h : s.pc.toNat ≤ 255)
    (ho : s.byteAt 0 = opcodeByte .hlt) :
    step s = .next { fetched s none with halted := true } := by
  have h' : s.beginStep.pc.toNat ≤ 255 := h
  have ho' : s.beginStep.byteAt 0 = opcodeByte .hlt := ho
  simp only [step, hr, if_true, fetchInstr, fetchOpcode_in h', ho']
  rw [fetched, ho]
  rfl

theorem step_operand_fault {s : State} (hr : s.ready = true) (h : 254 ≤ s.pc.toNat)
    (h2 : s.pc.toNat ≤ 255) (ho : s.byteAt 0 ≠ opcodeByte .hlt) :
    step s = .next (raise (.outOfBounds .fetchOperand) 256 none (fetched s none)) := by
  have h' : s.beginStep.pc.toNat ≤ 255 := h2
  have ho' : s.beginStep.byteAt 0 ≠ opcodeByte .hlt := ho
  have hf : readOperands { s.beginStep with ir := s.beginStep.byteAt 0 } =
      .error (raise (.outOfBounds .fetchOperand) 256 none
        { s.beginStep with ir := s.beginStep.byteAt 0 }) := readOperands_out h h2
  simp only [step, hr, if_true, fetchInstr, fetchOpcode_in h', ho', if_false, hf]
  rfl

theorem step_illegal {s : State} (hr : s.ready = true) (h : s.pc.toNat ≤ 253)
    (ho : opcodeOf (s.byteAt 0) = none) :
    step s = .next (raise .illegalInstruction 0 none
      (fetched s (some (s.byteAt 1, s.byteAt 2)))).endStep := by
  have h' : s.beginStep.pc.toNat ≤ 255 := by exact Nat.le_trans h (by decide)
  have ho' : s.beginStep.byteAt 0 ≠ opcodeByte .hlt := by
    intro e
    have e' : s.byteAt 0 = opcodeByte .hlt := e
    rw [e', opcodeOf_opcodeByte] at ho
    exact absurd ho (by simp)
  have hf : readOperands { s.beginStep with ir := s.beginStep.byteAt 0 } =
      .ok (fetched s (some (s.byteAt 1, s.byteAt 2))) := readOperands_in h
  have hd : decodeStage (fetched s (some (s.byteAt 1, s.byteAt 2))) =
      .error (raise .illegalInstruction 0 none (fetched s (some (s.byteAt 1, s.byteAt 2)))) := by
    simp only [decodeStage]
    rw [show (fetched s (some (s.byteAt 1, s.byteAt 2))).ir ::
      ((fetched s (some (s.byteAt 1, s.byteAt 2))).latch.map fun ab => [ab.1, ab.2]).getD [] =
        [s.byteAt 0, s.byteAt 1, s.byteAt 2] from rfl, decode_three_illegal ho]
  simp only [step, hr, if_true, fetchInstr, fetchOpcode_in h', ho', if_false, hf, hd]

/-- Stages 1 to 4 hand the handler the instruction at `pc`, in the state `fetched`. -/
theorem step_decoded {s : State} {o : Op} (hr : s.ready = true) (h : s.pc.toNat ≤ 253)
    (ho : opcodeOf (s.byteAt 0) = some o) (hne : o ≠ .hlt) :
    step s = Result.mapNext State.endStep
      (exec (o.instr (s.byteAt 1) (s.byteAt 2)) (fetched s (some (s.byteAt 1, s.byteAt 2)))) := by
  have h' : s.beginStep.pc.toNat ≤ 255 := by exact Nat.le_trans h (by decide)
  have ho' : s.beginStep.byteAt 0 ≠ opcodeByte .hlt := by
    intro e
    have e' : s.byteAt 0 = opcodeByte .hlt := e
    rw [e', opcodeOf_opcodeByte] at ho
    exact hne (Option.some.inj ho).symm
  have hf : readOperands { s.beginStep with ir := s.beginStep.byteAt 0 } =
      .ok (fetched s (some (s.byteAt 1, s.byteAt 2))) := readOperands_in h
  have hd : decodeStage (fetched s (some (s.byteAt 1, s.byteAt 2))) =
      .ok (o.instr (s.byteAt 1) (s.byteAt 2), fetched s (some (s.byteAt 1, s.byteAt 2))) := by
    obtain ⟨rest, hrest⟩ := decode_three (a := s.byteAt 1) (c := s.byteAt 2) ho
    simp only [decodeStage]
    rw [show (fetched s (some (s.byteAt 1, s.byteAt 2))).ir ::
      ((fetched s (some (s.byteAt 1, s.byteAt 2))).latch.map fun ab => [ab.1, ab.2]).getD [] =
        [s.byteAt 0, s.byteAt 1, s.byteAt 2] from rfl, hrest]
  simp only [step, hr, if_true, fetchInstr, fetchOpcode_in h', ho', if_false, hf, hd]

/-- The outcome of a step whose opcode decodes: the handler's fault taken, or its effect; the
latches are emptied at the end. -/
theorem step_decoded_eq {s : State} {o : Op} (hr : s.ready = true) (h : s.pc.toNat ≤ 253)
    (ho : opcodeOf (s.byteAt 0) = some o) (hne : o ≠ .hlt) :
    step s = .next (outcomeOf (o.instr (s.byteAt 1) (s.byteAt 2))
      (fetched s (some (s.byteAt 1, s.byteAt 2)))).endStep := by
  rw [step_decoded hr h ho hne, exec_eq]
  rfl

/-- Everything a step that may begin can do, in the order of R97 and R172. -/
theorem step_ready_cases {s : State} (hr : s.ready = true) :
    (255 < s.pc.toNat ∧ step s = .next
      (raise (.outOfBounds .fetchOpcode) s.pc.toNat none
        { s with latch := none, loadPhase := .stepped })) ∨
    (s.pc.toNat ≤ 255 ∧ s.byteAt 0 = opcodeByte .hlt ∧
      step s = .next { fetched s none with halted := true }) ∨
    (254 ≤ s.pc.toNat ∧ s.pc.toNat ≤ 255 ∧ s.byteAt 0 ≠ opcodeByte .hlt ∧
      step s = .next (raise (.outOfBounds .fetchOperand) 256 none (fetched s none))) ∨
    (s.pc.toNat ≤ 253 ∧ opcodeOf (s.byteAt 0) = none ∧
      step s = .next (raise .illegalInstruction 0 none
        (fetched s (some (s.byteAt 1, s.byteAt 2)))).endStep) ∨
    (∃ o, s.pc.toNat ≤ 253 ∧ opcodeOf (s.byteAt 0) = some o ∧ o ≠ .hlt ∧
      step s = .next (outcomeOf (o.instr (s.byteAt 1) (s.byteAt 2))
        (fetched s (some (s.byteAt 1, s.byteAt 2)))).endStep) := by
  rcases Nat.lt_or_ge 255 s.pc.toNat with h | h
  · exact .inl ⟨h, step_fetch_fault hr h⟩
  by_cases ho : s.byteAt 0 = opcodeByte .hlt
  · exact .inr (.inl ⟨h, ho, step_hlt hr h ho⟩)
  rcases Nat.lt_or_ge s.pc.toNat 254 with h2 | h2
  · cases hd : opcodeOf (s.byteAt 0) with
    | none => exact .inr (.inr (.inr (.inl ⟨by omega, rfl, step_illegal hr (by omega) hd⟩)))
    | some o =>
      have hne : o ≠ .hlt := by
        rintro rfl
        exact ho (opcodeOf_some hd)
      exact .inr (.inr (.inr (.inr ⟨o, by omega, rfl, hne, step_decoded_eq hr (by omega) hd hne⟩)))
  · exact .inr (.inr (.inl ⟨h2, h, ho, step_operand_fault hr h2 h ho⟩))

end Sys2Proof.Machine
end

