-- ==== Sys2Proof/Tests/Slice0.lean ====
section
/-! SUPPORT. Tests of the model against the spec's vectors (95_test_vectors.md, whose numbers the
docstrings give), words written out from the spec's encodings, and for every obligation a concrete
state and operands that meet its hypotheses. -/

namespace Sys2Proof.Tests

open Sys2Proof.Machine

/-! ### Small states -/

/-- The reset state with `bytes` at `pc`, after the load window. -/
def at_ (pc : Nat) (bytes : List Byte) : State :=
  { State.reset with
    pc := BitVec.ofNat 9 pc
    mem := Memory.writeBytes [] pc bytes
    loadPhase := .stepped }

/-- `s` with `R[r]` holding `v`. -/
def withR (r : RegIdx) (v : Byte) (s : State) : State := s.setReg r v.toNat

/-- `s` with `fl` set. -/
def withFl (s : State) : State := { s with fl := true }

/-- `s` with `v` in the cell at `a`. -/
def withCell (a : Nat) (v : Byte) (s : State) : State := { s with mem := Memory.write s.mem a v }

/-- One step, then a look at the next state. -/
def look {α : Type} (f : State → α) (s : State) : Option α :=
  match step s with
  | .next t => some (f t)
  | .fault _ => none
  | .refused _ => none

/-- The record of an `InvalidRegister` raised by the instruction `ir a b` at `pc`. -/
def badReg (pc : PcWord) (ir a b : Byte) (pos : OperandPos) : Option FaultRecord :=
  some { kind := .invalidRegister, pc := pc, ir := some ir, operands := some (a, b), addr := 0,
         badOperand := some pos }

/-- The record of an `OutOfBounds` with sub-kind `sub` at the address `addr`. -/
def outOfBounds (sub : BoundsKind) (pc : PcWord) (ir : Option Byte) (ops : Option (Byte × Byte))
    (addr : BitVec 9) : Option FaultRecord :=
  some { kind := .outOfBounds sub, pc := pc, ir := ir, operands := ops, addr := addr,
         badOperand := none }

/-! ### Words written out from the encodings (30_encoding.md R71, R72) -/

/-- LDI R5, 0xC3: 10000010 00000101 11000011, first byte lowest. -/
theorem test_decode_ldi :
    decodeTableWord 24 0b11000011_00000101_10000010 = some (.ldi 5 0xC3) := by
  decide

/-- PRN R3: 01000111 00000011, first byte lowest. -/
theorem test_decode_prn :
    decodeTableWord 16 0b00000011_01000111 = some (.prn 3) := by
  decide

/-- ADD R1, R6: 10100000 00000001 00000110, first byte lowest. -/
theorem test_decode_add :
    decodeTableWord 24 0b00000110_00000001_10100000 = some (.add 1 6) := by
  decide

/-- MUL R2, R5: 10100010 00000010 00000101, first byte lowest. -/
theorem test_decode_mul :
    decodeTableWord 24 0b00000101_00000010_10100010 = some (.mul 2 5) := by
  decide

/-- CMP R3, R4: 10100111 00000011 00000100, first byte lowest. -/
theorem test_decode_cmp :
    decodeTableWord 24 0b00000100_00000011_10100111 = some (.cmp 3 4) := by
  decide

/-- PUSH R6: 01000101 00000110, first byte lowest. -/
theorem test_decode_push :
    decodeTableWord 16 0b00000110_01000101 = some (.push 6) := by
  decide

/-- POP R2: 01000110 00000010, first byte lowest. -/
theorem test_decode_pop :
    decodeTableWord 16 0b00000010_01000110 = some (.pop 2) := by
  decide

/-- CALL R1: 01010000 00000001, first byte lowest. -/
theorem test_decode_call :
    decodeTableWord 16 0b00000001_01010000 = some (.call 1) := by
  decide

/-- RET: 00010001, first byte lowest. -/
theorem test_decode_ret :
    decodeTableWord 8 0b00010001 = some (.ret) := by
  decide

/-- JMP R3: 01010100 00000011, first byte lowest. -/
theorem test_decode_jmp :
    decodeTableWord 16 0b00000011_01010100 = some (.jmp 3) := by
  decide

/-- JEQ R4: 01010101 00000100, first byte lowest. -/
theorem test_decode_jeq :
    decodeTableWord 16 0b00000100_01010101 = some (.jeq 4) := by
  decide

/-- JNE R7: 01010110 00000111, first byte lowest. -/
theorem test_decode_jne :
    decodeTableWord 16 0b00000111_01010110 = some (.jne 7) := by
  decide

/-- HLT: 00000001, first byte lowest. -/
theorem test_decode_hlt :
    decodeTableWord 8 0b00000001 = some (.hlt) := by
  decide

/-- R76, 90_conflicts.md C2 (vector F8): 0xA1 is LS-8's SUB, and no opcode here. -/
theorem test_decode_sub_is_illegal :
    decode [0xA1, 0x00, 0x01] = .error (.illegalOpcode 0xA1) := by
  decide

/-- R77, R80: a byte that the format does not use stays in the sequence. -/
theorem test_decode_keeps_ignored_bytes :
    decode [0x47, 0x08, 0xAA] = .ok (.prn 0x08, [0xAA]) := by
  decide

/-- A sequence that ends before its operands is rejected by name. -/
theorem test_decode_truncated :
    decode [0x82, 0x05] = .error (.truncated 0x82) ∧ decode [] = .error .noBytes := by
  decide

/-! ### WellFormed: each register operand refused from 8 on (10_state.md R24) -/

/-- R24. -/
theorem test_ill_formed_ldi :
    Instr.wellFormed (.ldi 8 0) = false := by
  decide

/-- R24. -/
theorem test_ill_formed_prn :
    Instr.wellFormed (.prn 8) = false := by
  decide

/-- R24. -/
theorem test_ill_formed_add_a :
    Instr.wellFormed (.add 8 0) = false := by
  decide

/-- R24. -/
theorem test_ill_formed_add_b :
    Instr.wellFormed (.add 0 8) = false := by
  decide

/-- R24. -/
theorem test_ill_formed_mul_a :
    Instr.wellFormed (.mul 8 0) = false := by
  decide

/-- R24. -/
theorem test_ill_formed_mul_b :
    Instr.wellFormed (.mul 0 8) = false := by
  decide

/-- R24. -/
theorem test_ill_formed_cmp_a :
    Instr.wellFormed (.cmp 8 0) = false := by
  decide

/-- R24. -/
theorem test_ill_formed_cmp_b :
    Instr.wellFormed (.cmp 0 8) = false := by
  decide

/-- R24. -/
theorem test_ill_formed_push :
    Instr.wellFormed (.push 8) = false := by
  decide

/-- R24. -/
theorem test_ill_formed_pop :
    Instr.wellFormed (.pop 8) = false := by
  decide

/-- R24. -/
theorem test_ill_formed_call :
    Instr.wellFormed (.call 8) = false := by
  decide

/-- R24. -/
theorem test_ill_formed_jmp :
    Instr.wellFormed (.jmp 8) = false := by
  decide

/-- R24. -/
theorem test_ill_formed_jeq :
    Instr.wellFormed (.jeq 8) = false := by
  decide

/-- R24. -/
theorem test_ill_formed_jne :
    Instr.wellFormed (.jne 0xFF) = false := by
  decide

/-- R24, R79: registers up to 7, any immediate, and the two instructions without operands. -/
theorem test_well_formed :
    Instr.wellFormed (.ldi 7 0xFF) = true ∧ Instr.wellFormed (.cmp 7 0) = true ∧
      Instr.wellFormed .ret = true ∧ Instr.wellFormed .hlt = true := by
  decide

/-! ### One step, from the vectors of 95_test_vectors.md -/

/-- Vector I1. -/
theorem test_I1_ldi :
    look (fun t => (t.reg 5, t.pc.toNat, t.fl)) (at_ 0 [0x82, 0x05, 0xFF]) = some (255, 3, false) := by
  decide

/-- Vector I3. -/
theorem test_I3_ldi_bad_register :
    look (fun t => (t.fault, decide (t.regs = State.reset.regs))) (at_ 0 [0x82, 0x08, 0x01]) =
      some (badReg 0 0x82 0x08 0x01 .operandA, true) := by
  decide

/-- Vector I6. -/
theorem test_I6_prn_sp :
    look (fun t => (t.out, t.pc.toNat)) (at_ 0 [0x47, 0x07]) = some ([244], 2) := by
  decide

/-- Vector I8. -/
theorem test_I8_prn_bad_register :
    look (fun t => (t.out, t.fault)) (at_ 0 [0x47, 0x08]) =
      some ([], badReg 0 0x47 0x08 0x00 .operandA) := by
  decide

/-- Vector A2. -/
theorem test_A2_add_wraps :
    look (fun t => (t.reg 0, t.reg 1, t.pc.toNat))
        (withR 0 200 (withR 1 100 (at_ 0 [0xA0, 0x00, 0x01]))) = some (44, 100, 3) := by
  decide

/-- Vector A14. -/
theorem test_A14_add_operand_a_first :
    look State.fault (withR 0 1 (at_ 0 [0xA0, 0x09, 0x08])) =
      some (badReg 0 0xA0 0x09 0x08 .operandA) := by
  decide

/-- Vector A6. -/
theorem test_A6_mul_wraps :
    look (fun t => (t.reg 0, t.reg 1))
        (withR 0 255 (withR 1 255 (at_ 0 [0xA2, 0x00, 0x01]))) = some (1, 255) := by
  decide

/-- Vector A7. -/
theorem test_A7_mul_square :
    look (fun t => t.reg 3) (withR 3 15 (at_ 0 [0xA2, 0x03, 0x03])) = some 225 := by
  decide

/-- Vector A10. -/
theorem test_A10_cmp_equal :
    look (fun t => (t.fl, t.reg 0, t.reg 1))
        (withR 0 7 (withR 1 7 (at_ 0 [0xA7, 0x00, 0x01]))) = some (true, 7, 7) := by
  decide

/-- Vector A11. -/
theorem test_A11_cmp_unequal_clears :
    look (fun t => t.fl) (withFl (withR 0 3 (withR 1 5 (at_ 0 [0xA7, 0x00, 0x01])))) = some false := by
  decide

/-- Vector S2. -/
theorem test_S2_push_sp :
    look (fun t => (t.sp, Memory.read t.mem 0xF3)) (at_ 0 [0x45, 0x07]) = some (0xF3, 0xF3) := by
  decide

/-- Vector S4. -/
theorem test_S4_push_overflow :
    look (fun t => (t.fault, t.sp)) (withR 7 0 (at_ 0 [0x45, 0x00])) =
      some (outOfBounds .stackOverflow 0 (some 0x45) (some (0x00, 0x00)) 0, 0) := by
  decide

/-- Vector S8. -/
theorem test_S8_pop_sp_wraps :
    look (fun t => t.sp) (withR 7 0xF0 (withCell 0xF0 0xFF (at_ 0 [0x46, 0x07]))) = some 0 := by
  decide

/-- Vector S7. -/
theorem test_S7_pop_underflow :
    look State.fault (at_ 0 [0x46, 0x02]) =
      some (outOfBounds .stackUnderflow 0 (some 0x46) (some (0x02, 0x00)) 0xF4) := by
  decide

/-- Vector C1. -/
theorem test_C1_call :
    look (fun t => (t.sp, Memory.read t.mem 0xF3, t.pc.toNat)) (withR 1 11 (at_ 6 [0x50, 0x01])) =
      some (0xF3, 8, 11) := by
  decide

/-- Vector C2. -/
theorem test_C2_call_sp :
    look (fun t => (t.sp, Memory.read t.mem 0xF3, t.pc.toNat)) (at_ 6 [0x50, 0x07]) =
      some (0xF3, 8, 0xF3) := by
  decide

/-- Vector C5. -/
theorem test_C5_ret :
    look (fun t => (t.pc.toNat, t.sp)) (withR 7 0xF3 (withCell 0xF3 8 (at_ 0 [0x11]))) =
      some (8, 0xF4) := by
  decide

/-- Vector F12. -/
theorem test_F12_ret_at_254 :
    look (fun t => (t.fault, t.sp)) (withR 7 0xF3 (at_ 254 [0x11])) =
      some (outOfBounds .fetchOperand 254 (some 0x11) none 256, 0xF3) := by
  decide

/-- Vector C8. -/
theorem test_C8_jmp :
    look (fun t => t.pc.toNat) (withR 3 12 (at_ 0 [0x54, 0x03])) = some 12 := by
  decide

/-- Vector C19. -/
theorem test_C19_jmp_bad_register :
    look State.fault (at_ 0 [0x54, 0x08]) =
      some (badReg 0 0x54 0x08 0x00 .operandA) := by
  decide

/-- Vector C10. -/
theorem test_C10_jeq_taken :
    look (fun t => t.pc.toNat) (withFl (withR 3 12 (at_ 20 [0x55, 0x03]))) = some 12 := by
  decide

/-- Vector C12. -/
theorem test_C12_jeq_not_taken_ignores_operand :
    look (fun t => (t.pc.toNat, t.fault)) (at_ 20 [0x55, 0x09]) = some (22, none) := by
  decide

/-- Vector C15. -/
theorem test_C15_jne_taken :
    look (fun t => t.pc.toNat) (withR 3 12 (at_ 20 [0x56, 0x03])) = some 12 := by
  decide

/-- Vector C17. -/
theorem test_C17_jne_not_taken_ignores_operand :
    look (fun t => (t.pc.toNat, t.fault)) (withFl (at_ 20 [0x56, 0x09])) = some (22, none) := by
  decide

/-- Vector F3. -/
theorem test_F3_hlt_at_255 :
    look (fun t => (t.halted, t.pc.toNat, t.ir)) (at_ 255 [0x01]) = some (true, 255, 0x01) := by
  decide

/-- Vector F1. -/
theorem test_F1_fetch_at_256 :
    look (fun t => (t.fault, t.ir)) (at_ 256 []) =
      some (outOfBounds .fetchOpcode 256 none none 256, 0) := by
  decide

/-- Vector F5. -/
theorem test_F5_operand_fetch_goes_before_decode :
    look State.fault (at_ 255 [0xFF]) =
      some (outOfBounds .fetchOperand 255 (some 0xFF) none 256) := by
  decide

/-- Vector F7. -/
theorem test_F7_illegal :
    look State.fault (at_ 30 [0x00, 0x07, 0x09]) =
      some (some
        { kind := .illegalInstruction, pc := 30, ir := some 0x00, operands := some (0x07, 0x09), addr := 0,
          badOperand := none }) := by
  decide

/-- Vector F9. -/
theorem test_F9_halted_core_keeps_its_state :
    look (fun t => decide (t = { at_ 0 [0x82, 0x05, 0xFF] with halted := true }))
        { at_ 0 [0x82, 0x05, 0xFF] with halted := true } = some true := by
  decide

/-- Vector S11: as S10, with STACK_BASE = 256. -/
theorem test_S11_stack_base_256 :
    (match execPopWith 256 0x01 (withR 7 0xFF (withCell 0xFF 0x33 (at_ 0 [0x46, 0x01]))) with
      | .next t => some (t.reg 1, t.sp)
      | _ => none) = some (0x33, 0x00) := by
  decide

/-! ### The host -/

/-- Vector L5. -/
theorem test_L5_load_257 :
    ∀ bytes : List Byte, bytes.length = 257 → hostLoad bytes State.reset =
      (.loadError, { State.reset with loadPhase := .loadFailed }) := by
  intro bytes h
  simp [hostLoad, State.reset, State.resetWith, Config.memSize, h]

/-- Vector L6. -/
theorem test_L6_load_after_a_step :
    hostLoad [0x01] (at_ 0 []) = (.refused, at_ 0 []) := by
  decide

/-- Vector L3: comment and blank lines take no address. -/
theorem test_L3_program_text :
    parseLines ["# c".toList, [], "10000010 # LDI".toList, "00000000".toList, "00001000".toList] =
      .ok [0x82, 0x00, 0x08] := by
  decide

/-- Vectors L2 and L7. -/
theorem test_L2_L7_malformed_text :
    parseLine ['2'] = .error .loadError ∧ parseLine "1000001".toList = .error .loadError := by
  decide

/-- Log 14: white space may stand before a token and before a comment. -/
theorem test_text_leading_white_space :
    parseLine " \t10000010 # LDI".toList = .ok (some 0x82) ∧ parseLine "  # c".toList = .ok none := by
  decide

/-- Log 14: a second word after the token, or a comment glued to it, is malformed. -/
theorem test_text_second_word :
    parseLine "10000010 1".toList = .error .loadError ∧
      parseLine "10000010#c".toList = .error .loadError := by
  decide

/-- Vector L1: the text reaches memory; a line end at the end of the text is no line of its own. -/
theorem test_L1_load_text :
    (hostLoadText "10000010\n".toList State.reset).1 = .accepted ∧
      (hostLoadText "10000010\n".toList State.reset).2.mem = [(0, 0x82)] := by
  decide

/-- Vector L2: a malformed text is a LoadError, and the step after it changes nothing. -/
theorem test_L2_load_text :
    hostLoadText ['2'] State.reset = (.loadError, { State.reset with loadPhase := .loadFailed }) ∧
      look (fun t => t.loadPhase) (hostLoadText ['2'] State.reset).2 = some .loadFailed := by
  decide

/-- `withFetchWord` puts a word where the step after reset fetches. -/
theorem test_fetch_word_runs :
    look (fun t => (t.reg 5, t.pc.toNat)) (State.reset.withFetchWord 24 0xC30582) = some (0xC3, 3) := by
  decide

/-! ### Witnesses: for every obligation with hypotheses, a state and operands that meet them -/

/-- Stage 3 fails for `op` at both addresses of `OperandFetchFaults`. -/
abbrev FetchWitness (op : Byte) : Prop :=
  ∀ p ∈ [254, 255], (at_ p [op]).ready = true ∧ (at_ p [op]).byteAt 0 = op ∧
    254 ≤ (at_ p [op]).pc.toNat ∧ (at_ p [op]).pc.toNat ≤ 255

/-- The last legal register operand, at the last address whose operands are readable. -/
abbrev LegalWitness : Prop := (7 : Byte).toNat = (7 : RegIdx).val ∧ (at_ 253 []).pc.toNat ≤ 253

/-- The first illegal register operand. -/
abbrev IllegalWitness : Prop := 8 ≤ (8 : Byte).toNat

/-- Every step answers `stepState`. -/
theorem step_answers (s : State) : step s = .next (stepState s) := by
  cases h : s.ready with
  | false => simp [stepState, step_not_ready h]
  | true =>
    rcases step_ready_cases h with ⟨_, e⟩ | ⟨_, _, e⟩ | ⟨_, _, _, e⟩ | ⟨_, _, e⟩ | ⟨_, _, _, _, e⟩ <;>
      simp [stepState, e]

/-- The invariant of a state in the middle of a run. -/
theorem running_inv {s : State} (hw : Memory.wf s.mem = true) (hp : s.pc.toNat ≤ 256)
    (hl : s.latch = none) (hh : s.halted = false) (hf : s.fault = none)
    (hs : s.loadPhase = .stepped) : CoreInv s where
  mem_wf := hw
  pc_le := hp
  latch_none := hl
  halted_no_fault := by simp [hh]
  halted_at_hlt := by simp [hh]
  fault_fits := by simp [hf]
  unstepped := by simp [hs]

theorem opcodeByte_injective : Function.Injective opcodeByte := fun _ _ h => opcodeByte_inj h

theorem witness_DecodeOfEncodeIsIdentity :
    ∃ m : Op → Byte, Function.Injective m := by
  exact ⟨opcodeByte, opcodeByte_injective⟩

theorem witness_DecodedBytesAreTheEncoding :
    decodeWith opcodeByte [0x82, 0xFF, 0x00, 0x11] = .ok (.ldi 0xFF 0x00, [0x11]) := by
  decide

theorem witness_OpcodeSelectedByWholeByte :
    ∃ m : Op → Byte, Function.Injective m := by
  exact ⟨opcodeByte, opcodeByte_injective⟩

theorem witness_OtherOpcodeBytesAreIllegal :
    (0x00 : Byte) ∉ ([0x82, 0x47, 0xA0, 0xA2, 0xA7, 0x45, 0x46, 0x50, 0x11, 0x54, 0x55, 0x56, 0x01] :
      List Byte) := by
  decide

theorem witness_OpcodeAloneSetsTheLength :
    decode (0x45 :: [0xFF]) = .ok (.push 0xFF, []) ∧
      decode (0x45 :: [0x00, 0x07]) = .ok (.push 0x00, [0x07]) := by
  decide

theorem witness_MemReadAndMemWriteOfOneCell :
    Memory.wf (at_ 255 [0x01]).mem = true ∧ (255 : Nat) ≤ 255 ∧ (255 : Nat) < 256 := by
  decide

theorem witness_CanonicalMemoryIsUnique :
    ∃ m m' : Memory, Memory.wf m = true ∧ Memory.wf m' = true ∧ m ≠ [] ∧
      ∀ addr, Memory.read m addr = Memory.read m' addr := by
  exact ⟨[(255, 1)], Memory.write [] 255 1, by decide, by decide, by decide, fun _ => rfl⟩

theorem witness_AluArithmeticIsModulo256 :
    (withR 7 255 (at_ 0 [])).regs[(7 : RegIdx)] = 255 ∧ (at_ 0 []).regs[(0 : RegIdx)] = 0 := by
  decide

theorem witness_LdiLoadsImmediate :
    LegalWitness ∧ IllegalWitness ∧ FetchWitness 0x82 := by
  decide

theorem witness_PrnAppendsRegisterToOutput :
    LegalWitness ∧ IllegalWitness ∧ FetchWitness 0x47 := by
  decide

theorem witness_AddIsSumModulo256 :
    LegalWitness ∧ (0 : Byte).toNat = (0 : RegIdx).val ∧ IllegalWitness ∧ ((7 : Byte).toNat < 8 ∧ IllegalWitness) ∧
      FetchWitness 0xA0 := by
  decide

theorem witness_MulIsProductModulo256 :
    LegalWitness ∧ (0 : Byte).toNat = (0 : RegIdx).val ∧ IllegalWitness ∧ ((7 : Byte).toNat < 8 ∧ IllegalWitness) ∧
      FetchWitness 0xA2 := by
  decide

theorem witness_CmpWritesTheEqualFlag :
    LegalWitness ∧ (0 : Byte).toNat = (0 : RegIdx).val ∧ IllegalWitness ∧ ((7 : Byte).toNat < 8 ∧ IllegalWitness) ∧
      FetchWitness 0xA7 := by
  decide

/-- Both a register other than SP and SP itself, at the least SP that has room. -/
theorem witness_PushStoresBelowTheStackPointer :
    LegalWitness ∧ (0 : Byte).toNat = (0 : RegIdx).val ∧
      (withR 7 1 (at_ 253 [])).sp ≠ 0#8 ∧ Memory.wf (withR 7 1 (at_ 253 [])).mem = true ∧ IllegalWitness ∧
      ((7 : Byte).toNat < 8 ∧ (withR 7 0 (at_ 0 [])).sp = 0#8) ∧ FetchWitness 0x45 := by
  decide

/-- Both a register other than SP and SP itself, at the least SP that has room. -/
theorem witness_CallPushesTheReturnAddress :
    LegalWitness ∧ (0 : Byte).toNat = (0 : RegIdx).val ∧
      (withR 7 1 (at_ 253 [])).sp ≠ 0#8 ∧ Memory.wf (withR 7 1 (at_ 253 [])).mem = true ∧ IllegalWitness ∧
      ((7 : Byte).toNat < 8 ∧ (withR 7 0 (at_ 0 [])).sp = 0#8) ∧ FetchWitness 0x50 := by
  decide

theorem witness_PopLoadsAndRaisesTheStackPointer :
    LegalWitness ∧ (0 : Byte).toNat = (0 : RegIdx).val ∧
      (withR 7 0xF3 (at_ 253 [])).sp.toNat < 0xF4 ∧ IllegalWitness ∧
      ((7 : Byte).toNat < 8 ∧ 0xF4 ≤ (at_ 0 []).sp.toNat) ∧ FetchWitness 0x46 := by
  decide

theorem witness_RetPopsTheReturnAddress :
    (withR 7 0xF3 (at_ 0 [])).sp.toNat < 0xF4 ∧ 0xF4 ≤ (at_ 0 []).sp.toNat ∧ FetchWitness 0x11 := by
  decide

theorem witness_JmpSetsPcToTheRegister :
    (7 : Byte).toNat = (7 : RegIdx).val ∧ IllegalWitness ∧ FetchWitness 0x54 := by
  decide

theorem witness_JeqJumpsWhenTheFlagIsSet :
    (at_ 253 []).pc.toNat ≤ 253 ∧ ((withFl (at_ 253 [])).fl = true ∧ (7 : Byte).toNat < 8) ∧
      (at_ 253 []).fl = false ∧ ((withFl (at_ 0 [])).fl = true ∧ IllegalWitness) ∧ FetchWitness 0x55 := by
  decide

theorem witness_JneJumpsWhenTheFlagIsClear :
    (at_ 253 []).pc.toNat ≤ 253 ∧ ((at_ 253 []).fl = false ∧ (7 : Byte).toNat < 8) ∧
      (withFl (at_ 253 [])).fl = true ∧ ((at_ 0 []).fl = false ∧ IllegalWitness) ∧ FetchWitness 0x56 := by
  decide

theorem witness_HltHaltsAtEveryAddress :
    (at_ 255 [0x01]).ready = true ∧ (at_ 255 [0x01]).pc.toNat ≤ 255 ∧
      (at_ 255 [0x01]).byteAt 0 = opcodeByte .hlt := by
  decide

theorem witness_StepRunsTheDecodedInstruction :
    (at_ 253 [0x54, 0x07, 0x00]).ready = true ∧ (at_ 253 [0x54, 0x07, 0x00]).pc.toNat ≤ 253 ∧
      decode [(at_ 253 [0x54, 0x07, 0x00]).byteAt 0, (at_ 253 [0x54, 0x07, 0x00]).byteAt 1,
        (at_ 253 [0x54, 0x07, 0x00]).byteAt 2] = .ok (.jmp 0x07, [0x00]) ∧
      (at_ 255 [0x01]).ready = true ∧ (at_ 255 [0x01]).pc.toNat ≤ 255 ∧
      decode [(at_ 255 [0x01]).byteAt 0, (at_ 255 [0x01]).byteAt 1, (at_ 255 [0x01]).byteAt 2] =
        .ok (.hlt, [0x00, 0x00]) := by
  decide

theorem witness_FetchBeyondMemoryFaults :
    (at_ 256 []).ready = true ∧ 255 < (at_ 256 []).pc.toNat := by
  decide

theorem witness_EveryOtherOpcodeReadsBothOperands :
    (∀ p ∈ [254, 255], (at_ p [0xFF]).ready = true ∧ (at_ p [0xFF]).byteAt 0 ≠ opcodeByte .hlt ∧
      ((at_ p [0xFF]).pc.toNat = 254 ∨ (at_ p [0xFF]).pc.toNat = 255)) ∧
      (at_ 253 [0x00]).ready = true ∧ (at_ 253 [0x00]).pc.toNat ≤ 253 ∧
      (stepState (at_ 253 [0x00])).fault.isSome = true ∧
      step (at_ 253 [0x00]) = .next (stepState (at_ 253 [0x00])) := by
  exact ⟨by decide, by decide, by decide, by decide, step_answers _⟩

theorem witness_IllegalOpcodeFaults :
    (at_ 253 [0xA1]).ready = true ∧ (at_ 253 [0xA1]).pc.toNat ≤ 253 ∧
      opcodeOf ((at_ 253 [0xA1]).byteAt 0) = none := by
  decide

theorem witness_BadRegisterOperandFaults :
    ((at_ 253 [0x47, 0x08]).ready = true ∧ (at_ 253 [0x47, 0x08]).pc.toNat ≤ 253 ∧
      opcodeOf ((at_ 253 [0x47, 0x08]).byteAt 0) = some .prn ∧ Op.usesA false .prn = true ∧
      8 ≤ ((at_ 253 [0x47, 0x08]).byteAt 1).toNat) ∧
      (at_ 0 [0xA7, 0x07, 0xFF]).ready = true ∧ opcodeOf ((at_ 0 [0xA7, 0x07, 0xFF]).byteAt 0) = some .cmp ∧
      Op.usesB .cmp = true ∧ ((at_ 0 [0xA7, 0x07, 0xFF]).byteAt 1).toNat < 8 ∧
      8 ≤ ((at_ 0 [0xA7, 0x07, 0xFF]).byteAt 2).toNat := by
  decide

theorem witness_StackBoundsFault :
    ((withR 7 0 (at_ 253 [0x50, 0x07])).ready = true ∧ (withR 7 0 (at_ 253 [0x50, 0x07])).pc.toNat ≤ 253 ∧
      opcodeOf ((withR 7 0 (at_ 253 [0x50, 0x07])).byteAt 0) = some .call ∧
      ((withR 7 0 (at_ 253 [0x50, 0x07])).byteAt 1).toNat < 8 ∧ Op.pushes .call = true ∧
      (withR 7 0 (at_ 253 [0x50, 0x07])).sp = 0#8) ∧
      (at_ 253 [0x11]).ready = true ∧ opcodeOf ((at_ 253 [0x11]).byteAt 0) = some .ret ∧
      Op.usesA false .ret = false ∧ Op.pops .ret = true ∧ 0xF4 ≤ (at_ 253 [0x11]).sp.toNat := by
  decide

theorem witness_FaultIsTheFirstOfThePriorityList :
    (at_ 0 [0xA0, 0x08, 0x08]).ready = true ∧ (at_ 0 [0xA0, 0x08, 0x08]).firstFault =
      some (.invalidRegister, some .operandA) := by
  decide

theorem witness_FaultsArePrecise :
    ∃ (s t : State) (r : FaultRecord), step s = .next t ∧ s.fault = none ∧ t.fault = some r := by
  exact ⟨at_ 256 [], _, _, step_answers _, rfl, rfl⟩

theorem witness_NoStepRaisesTheInternalFaults :
    (∃ (i : Instr) (s t : State) (r : FaultRecord), s.fault = none ∧ exec i s = .next t ∧
        t.fault = some r) ∧
      ∃ (s t : State) (r : FaultRecord), s.fault = none ∧ step s = .next t ∧ t.fault = some r := by
  exact ⟨⟨.add 8 0, at_ 0 [], _, _, rfl, exec_eq _ _, rfl⟩, ⟨at_ 256 [], _, _, rfl, step_answers _, rfl⟩⟩

theorem witness_StoppedCoreTakesNoStep :
    { at_ 0 [] with halted := true }.halted = true ∧ (stepState (at_ 256 [])).fault.isSome = true ∧
      { State.reset with loadPhase := .loadFailed }.loadPhase = .loadFailed := by
  decide

theorem witness_StepKeepsTheInvariant :
    ∃ s t : State, CoreInv s ∧ step s = .next t := by
  exact ⟨at_ 0 [0x45, 0x07], _, running_inv (by decide) (by decide) rfl rfl rfl rfl, step_answers _⟩

theorem witness_HostRequestsKeepTheInvariant :
    ∃ s : State, CoreInv s := by
  exact ⟨at_ 0 [0x45, 0x07], running_inv (by decide) (by decide) rfl rfl rfl rfl⟩

theorem witness_OutputGrowsOnlyByPrn :
    ∃ s t : State, step s = .next t ∧ t.out ≠ s.out := by
  exact ⟨at_ 0 [0x47, 0x07], _, step_answers _, by decide⟩

theorem witness_FlagIsWrittenByCmpAndReadByJumps :
    (∃ (s t : State) (ra rb : RegIdx), step s = .next t ∧ t.fl ≠ s.fl ∧ s.ready = true ∧ s.pc.toNat ≤ 253 ∧
      s.byteAt 0 = opcodeByte .cmp ∧ (s.byteAt 1).toNat = ra.val ∧ (s.byteAt 2).toNat = rb.val) ∧
      (∃ (i : Instr) (s t : State), s.fault = none ∧ i.op ≠ .jeq ∧ i.op ≠ .jne ∧ i.op ≠ .cmp ∧
        exec i s = .next t) ∧
      ∃ (i : Instr) (s t : State), s.fault = none ∧ i.op ≠ .jeq ∧ i.op ≠ .jne ∧ i.op = .cmp ∧
        exec i s = .next t ∧ t.fault = none := by
  exact ⟨⟨at_ 253 [0xA7, 0x07, 0x07], _, 7, 7, step_answers _, by decide, by decide, by decide, by decide,
    by decide, by decide⟩, ⟨.push 7, at_ 0 [], _, rfl, by decide, by decide, by decide, exec_eq _ _⟩,
    ⟨.cmp 7 0, at_ 0 [], _, rfl, by decide, by decide, rfl, exec_eq _ _, by decide⟩⟩

theorem witness_HaltedIsSetOnlyByHlt :
    (∃ s t : State, step s = .next t ∧ s.halted = false ∧ t.halted = true ∧ s.pc.toNat = 255) ∧
      ∃ s t : State, step s = .next t ∧ s.halted = true := by
  exact ⟨⟨at_ 255 [0x01], _, step_answers _, by decide⟩, ⟨{ at_ 0 [] with halted := true }, _, step_answers _, rfl⟩⟩

theorem witness_PcFollowsTheUpdateTable :
    (∃ (s t : State) (o : Op), s.ready = true ∧ s.pc.toNat ≤ 255 ∧ opcodeOf (s.byteAt 0) = some o ∧
      step s = .next t ∧ t.fault = none) ∧
      ∃ s t : State, s.fault = none ∧ step s = .next t ∧ t.fault ≠ none := by
  exact ⟨⟨at_ 255 [0x01], _, .hlt, by decide, by decide, by decide, step_answers _, by decide⟩,
    ⟨at_ 256 [], _, rfl, step_answers _, by decide⟩⟩

theorem witness_RegistersChangeOnlyByTheTable :
    ∃ (s t : State) (r : RegIdx), step s = .next t ∧ t.reg r ≠ s.reg r := by
  exact ⟨at_ 0 [0x45, 0x00], _, 7, step_answers _, by decide⟩

theorem witness_MemoryChangesOnlyByPushAndCall :
    ∃ (s t : State) (addr : Nat), Memory.wf s.mem = true ∧ step s = .next t ∧
      Memory.read t.mem addr ≠ Memory.read s.mem addr := by
  exact ⟨at_ 0 [0x45, 0x07], _, 0xF3, by decide, step_answers _, by decide⟩

theorem witness_IrHoldsTheFetchedOpcode :
    ∃ s s' t t' : State, s.ready = true ∧ step s = .next t ∧ s.pc.toNat = 255 ∧
      s'.ready = true ∧ step s' = .next t' ∧ s'.pc.toNat = 256 := by
  exact ⟨at_ 255 [0x01], at_ 256 [], _, _, by decide, step_answers _, by decide, by decide, step_answers _,
    by decide⟩

theorem witness_LatchedBytesCarryNothing :
    (at_ 0 []).ready = true ∧
      ∃ (i : Instr) (s t : State), s.fault = none ∧ exec i s = .next t ∧ t.fault = none := by
  exact ⟨by decide, .push 7, at_ 0 [], _, rfl, exec_eq _ _, by decide⟩

/-- For every k, at the least SP and the last address. -/
theorem witness_PushThenPopRestores :
    ∀ k : RegIdx, ∃ s : State, CoreInv s ∧ s.ready = true ∧ 1 ≤ s.sp.toNat ∧ s.sp.toNat ≤ 0xF4 ∧
      s.pc.toNat ≤ 251 ∧ s.byteAt 0 = opcodeByte .push ∧ (s.byteAt 1).toNat = k.val ∧
      s.byteAt 2 = opcodeByte .pop ∧ (s.byteAt 3).toNat = k.val ∧
      s.decSp.sp.toNat ≠ s.pc.toNat + 2 ∧ s.decSp.sp.toNat ≠ s.pc.toNat + 3 := by
  intro k
  refine ⟨withR 7 1 (at_ 251 [0x45, wrap8 k.val, 0x46, wrap8 k.val]), ?_, ?_⟩
  · exact running_inv (by revert k; decide) (by revert k; decide) rfl rfl rfl rfl
  · revert k
    decide

theorem witness_CallThenRetReturns :
    ∃ (s : State) (r : RegIdx), CoreInv s ∧ s.ready = true ∧ 1 ≤ s.sp.toNat ∧ s.sp.toNat ≤ 0xF4 ∧
      s.pc.toNat ≤ 253 ∧ s.byteAt 0 = opcodeByte .call ∧ (s.byteAt 1).toNat = r.val ∧
      (s.decSp.reg r).toNat ≤ 253 ∧ Memory.read s.mem (s.decSp.reg r).toNat = opcodeByte .ret ∧
      s.decSp.sp.toNat ≠ (s.decSp.reg r).toNat := by
  exact ⟨withR 0 253 (withCell 253 0x11 (at_ 6 [0x50, 0x00])), 0,
    running_inv (by decide) (by decide) rfl rfl rfl rfl, by decide⟩

theorem witness_StackIsLastInFirstOut :
    ((0 : Byte).toNat = (0 : RegIdx).val ∧ (1 : Byte).toNat = (1 : RegIdx).val ∧
      (2 : Byte).toNat = (2 : RegIdx).val ∧ (6 : Byte).toNat = (6 : RegIdx).val) ∧
      ((0 : RegIdx) ≠ 7 ∧ (1 : RegIdx) ≠ 7 ∧ (2 : RegIdx) ≠ 7 ∧ (6 : RegIdx) ≠ 7 ∧ (2 : RegIdx) ≠ 6) ∧
      Memory.wf (withR 7 2 (at_ 0 [])).mem = true ∧ 2 ≤ (withR 7 2 (at_ 0 [])).sp.toNat ∧
      (withR 7 2 (at_ 0 [])).sp.toNat ≤ 0xF4 := by
  decide

theorem witness_StackBase256SwitchesTheCheckOff :
    ((6 : Byte).toNat = (6 : RegIdx).val ∧ (6 : RegIdx) ≠ 7) ∧ (7 : Byte).toNat = (7 : RegIdx).val := by
  decide

theorem witness_JumpToItselfRunsForever :
    ∃ (s : State) (r : RegIdx), s.ready = true ∧ s.pc.toNat ≤ 253 ∧ s.byteAt 0 = opcodeByte .jmp ∧
      (s.byteAt 1).toNat = r.val ∧ (s.reg r).toNat = s.pc.toNat := by
  exact ⟨withR 7 253 (at_ 253 [0x54, 0x07]), 7, by decide⟩

/-- Program P6 at its PUSH. -/
theorem witness_FetchSeesAnEarlierPush :
    ∃ (s : State) (r : RegIdx), CoreInv s ∧ s.ready = true ∧ s.pc.toNat ≤ 253 ∧ s.sp ≠ 0#8 ∧
      s.byteAt 0 = opcodeByte .push ∧ (s.byteAt 1).toNat = r.val ∧
      s.decSp.reg r = opcodeByte .hlt ∧ s.decSp.sp.toNat = s.pc.toNat + 2 := by
  exact ⟨withR 7 9 (withR 0 1 (at_ 6 [0x45, 0x00, 0x47])), 0,
    running_inv (by decide) (by decide) rfl rfl rfl rfl, by decide⟩

theorem witness_TheStackHolds244Pushes :
    (7 : Byte).toNat = (7 : RegIdx).val ∧ State.reset.sp = 0xF4#8 ∧ State.reset.fault = none ∧
      (244 : Nat) ≤ 244 := by
  decide

theorem witness_ARunHasOneEndOfTwoKinds :
    ∃ s t : State, CoreInv s ∧ RunEnds s t := by
  refine ⟨at_ 0 [0x01], stepState (at_ 0 [0x01]),
    running_inv (by decide) (by decide) rfl rfl rfl rfl, 1, rfl, by decide, ?_⟩
  intro m hm
  obtain rfl : m = 0 := by omega
  decide

theorem witness_ResetLeavesTheTableValues :
    (255 : Nat) ≤ 255 := by
  decide

theorem witness_FirstStepFetchesAddressZero :
    ∃ (g : Vector Byte 7) (bytes : List Byte) (t : State), bytes.length ≤ 256 ∧ bytes ≠ [] ∧
      step (launchState g bytes) = .next t := by
  exact ⟨Config.gprReset, [0x82], _, by decide, by decide, step_answers _⟩

theorem witness_LaunchStateHoldsTheProgram :
    ∃ bytes : List Byte, bytes.length = 256 := by
  exact ⟨List.replicate 256 0x01, by rw [List.length_replicate]⟩

theorem witness_LoadIsPermittedOnlyBeforeTheFirstStep :
    Memory.wf State.reset.mem = true ∧ State.reset.loadPhase = .beforeFirstStep ∧
      (∃ bytes : List Byte, bytes.length = 256) ∧ (∃ bytes : List Byte, bytes.length = 257) ∧
      (at_ 0 []).loadPhase ≠ .beforeFirstStep ∧
      State.reset.ready = true ∧ step State.reset = .next (stepState State.reset) := by
  exact ⟨by decide, by decide, ⟨List.replicate 256 0x01, by rw [List.length_replicate]⟩,
    ⟨List.replicate 257 0x01, by rw [List.length_replicate]⟩, by decide, by decide, step_answers _⟩

/-- A comment line, a token line with white space and a comment around it, and a bare token. -/
theorem witness_ProgramTextLoadsItsBytes :
    ∃ rows : List (List Char × Option Byte), (rows.filterMap Prod.snd).length ≤ 256 ∧ rows.length = 3 ∧
      ∀ row ∈ rows, LineMeans row.1 row.2 ∧ '\n' ∉ row.1 := by
  refine ⟨[(['#', 'c'], none), ([' '] ++ binaryLine 0x82 ++ [' '] ++ ['#', 'L'], some 0x82),
    (binaryLine 0xFF, some 0xFF)], by decide, rfl, ?_⟩
  intro row hrow
  simp only [List.mem_cons, List.not_mem_nil, or_false] at hrow
  rcases hrow with rfl | rfl | rfl
  · exact ⟨⟨[], ['#', 'c'], rfl, by simp, .inr rfl⟩, by decide⟩
  · exact ⟨⟨[' '], [' '], ['#', 'L'], rfl, by simp [isBlankChar], by simp [isBlankChar], .inr ⟨rfl, by simp⟩⟩,
      by simp [newline_notMem_binaryLine]⟩
  · exact ⟨⟨[], [], [], by simp, by simp, by simp, .inl rfl⟩, newline_notMem_binaryLine _⟩

theorem witness_OutputIsShownInShortestDecimal :
    (0x00 : Byte) = 0#8 ∧ (0xFF : Byte) ≠ 0#8 := by
  decide

theorem witness_HostReadsTheFaultInItsCodes :
    ∃ r r' : FaultRecord, (r.ir = none ∧ r.operands = none) ∧ r'.ir = some 0xFF ∧
      r'.operands = some (0xFF, 0x08) := by
  exact ⟨⟨.outOfBounds .fetchOpcode, 256, none, none, 256, none⟩,
    ⟨.invalidRegister, 0, some 0xFF, some (0xFF, 0x08), 0, some .operandB⟩, ⟨rfl, rfl⟩, rfl, rfl⟩

/-- The line `2` of vector L2 stands for nothing. -/
theorem line_2_malformed : LineMalformed ['2'] := by
  rintro (_ | b)
  · intro h
    exact absurd ((blankOrComment_iff _).2 h) (by decide)
  · rintro ⟨before, after, comment, h, _⟩
    have hl := congrArg List.length h
    simp [binaryLine] at hl
    omega

theorem witness_MalformedProgramTextBarsEveryStep :
    (∃ (text : List Char) (s : State), (∃ line ∈ splitLines text, LineMalformed line) ∧
        s.loadPhase = .beforeFirstStep) ∧ (at_ 0 []).loadPhase ≠ .beforeFirstStep ∧
      ∃ rows : List (List Char × Option Byte), (∀ row ∈ rows, LineMeans row.1 row.2 ∧ '\n' ∉ row.1) ∧
        256 < (rows.filterMap Prod.snd).length := by
  refine ⟨⟨['2'], State.reset, ⟨['2'], by decide, line_2_malformed⟩, rfl⟩, by decide,
    List.replicate 257 (binaryLine 0x01, some 0x01), ?_, ?_⟩
  · intro row hrow
    obtain rfl := (List.mem_replicate.1 hrow).2
    exact ⟨⟨[], [], [], by simp, by simp, by simp, .inl rfl⟩, newline_notMem_binaryLine _⟩
  · rw [List.filterMap_replicate]
    show 256 < (List.replicate 257 (0x01 : Byte)).length
    rw [List.length_replicate]
    decide

end Sys2Proof.Tests
end

section
/-! PROOFS. What one step leaves, said once in three cases (`step_shape`), for the statements that say
what a step can write, state part by state part. -/

namespace Sys2Proof.Machine

@[simp] theorem op_instr (o : Op) (a b : Byte) : (o.instr a b).op = o := by cases o <;> rfl

/-- The opcode names are as distinct as their bytes. -/
theorem byte_eq_opcodeByte_iff {b : Byte} {o : Op} (h : opcodeOf b = some o) (o' : Op) :
    b = opcodeByte o' ↔ o = o' := by
  rw [opcodeOf_some h]
  exact ⟨opcodeByte_inj, congrArg opcodeByte⟩

/-- The instruction a step of `s` hands to its handler when the opcode is `o`. -/
abbrev State.instrAt (s : State) (o : Op) : Instr := o.instr (s.byteAt 1) (s.byteAt 2)

/-- The state in which the handler of a step of `s` runs: `ir` and both latches are filled. -/
abbrev State.handlerState (s : State) : State := fetched s (some (s.byteAt 1, s.byteAt 2))

/-- The states a step of `s` can leave, with what each case tells of `s` (R97, R98, R165). -/
inductive StepShape (s : State) : State → Prop
  /-- The step may not begin. -/
  | idle (hr : s.ready = false) : StepShape s s
  /-- A stage or the handler faults, which no fetched HLT does. -/
  | faulted (hr : s.ready = true) (hne : ¬(s.pc.toNat ≤ 255 ∧ s.byteAt 0 = opcodeByte .hlt))
      (ir : Byte) (r : FaultRecord) :
      StepShape s { s with ir := ir, fault := some r, latch := none, loadPhase := .stepped }
  /-- The handler completes. -/
  | completed (hr : s.ready = true) (o : Op) (hpc : s.pc.toNat ≤ 255)
      (ho : opcodeOf (s.byteAt 0) = some o)
      (hf : handlerFault (s.instrAt o) s.handlerState = none) :
      StepShape s (completed (s.instrAt o) s.handlerState).endStep

/-- Every step has one of the three shapes. HLT, which is found before the operands are read, leaves
the same state as its handler run after they are read, since the latches are emptied at the end. -/
theorem step_shape {s t : State} (h : step s = .next t) : StepShape s t := by
  cases hr : s.ready with
  | false =>
    obtain rfl : s = t := by simpa [step_not_ready hr] using h
    exact .idle hr
  | true =>
    rcases step_ready_cases hr with ⟨hpc, e⟩ | ⟨hpc, ho, e⟩ | ⟨-, -, ho, e⟩ | ⟨-, ho, e⟩ |
      ⟨o, hpc, ho, hne, e⟩ <;> obtain rfl := Host.Outcome.next.inj (e.symm.trans h)
    · exact .faulted hr (by omega) _ _
    · have ho' : opcodeOf (s.byteAt 0) = some .hlt := ho ▸ opcodeOf_opcodeByte .hlt
      exact .completed hr .hlt hpc ho' rfl
    · exact .faulted hr (fun hh => ho hh.2) _ _
    · have hne : s.byteAt 0 ≠ opcodeByte .hlt := fun hh => by simp [hh, opcodeOf_opcodeByte] at ho
      exact .faulted hr (fun hh => hne hh.2) _ _
    · have hne' : s.byteAt 0 ≠ opcodeByte .hlt := fun hh => hne ((byte_eq_opcodeByte_iff ho _).1 hh)
      rw [outcomeOf]
      split
      · exact .faulted hr (fun hh => hne' hh.2) _ _
      · exact .completed hr o (by omega) ho ‹_›

/-! ### fl -/

/-- Only CMP writes `fl` (R32). -/
theorem completed_fl {i : Instr} (h : i.op ≠ .cmp) (s : State) : (completed i s).fl = s.fl := by
  cases i
  case cmp => exact absurd rfl h
  all_goals simp [completed, pushed, apply_ite State.fl]

theorem completed_cmp_fl (a b : Byte) (s : State) :
    (completed (.cmp a b) s).fl = true ↔ s.reg (operandReg a) = s.reg (operandReg b) := by
  simp [completed, equalFlag]

/-- CMP with two legal operands raises no fault. -/
theorem handlerFault_cmp {a b : Byte} {ra rb : RegIdx} (ha : a.toNat = ra.val)
    (hb : b.toNat = rb.val) (s : State) : handlerFault (.cmp a b) s = none := by
  have ha' : ¬8 ≤ a.toNat := by omega
  have hb' : ¬8 ≤ b.toNat := by omega
  simp [handlerFault, operandA, operandB, Instr.operandBytes, Instr.op, Op.pushes, Op.pops, ha', hb']

/-- Apart from JEQ and JNE, which operands an instruction uses does not depend on `fl` (R170). -/
theorem usesA_congr {o : Op} (hq : o ≠ .jeq) (hn : o ≠ .jne) (f g : Bool) :
    Op.usesA f o = Op.usesA g o := by
  cases o
  case jeq => exact absurd rfl hq
  case jne => exact absurd rfl hn
  all_goals rfl

/-- Apart from JEQ and JNE, no handler's fault depends on `fl`. -/
theorem handlerFault_withFl {i : Instr} (hq : i.op ≠ .jeq) (hn : i.op ≠ .jne) (s : State)
    (f : Bool) : handlerFault i { s with fl := f } = handlerFault i s := by
  rw [handlerFault, usesA_congr hq hn f s.fl]
  rfl

/-- Apart from CMP, JEQ and JNE, a completed instruction carries `fl` along unread. -/
theorem completed_withFl {i : Instr} (hc : i.op ≠ .cmp) (hq : i.op ≠ .jeq) (hn : i.op ≠ .jne)
    (s : State) (f : Bool) :
    completed i { s with fl := f } = { completed i s with fl := f } := by
  cases i
  case cmp => exact absurd rfl hc
  case jeq => exact absurd rfl hq
  case jne => exact absurd rfl hn
  all_goals rfl

/-- A completed CMP overwrites `fl` without reading it. -/
theorem completed_cmp_withFl {i : Instr} (hc : i.op = .cmp) (s : State) (f : Bool) :
    completed i { s with fl := f } = completed i s := by
  cases i
  case cmp => rfl
  all_goals cases hc

/-- Apart from CMP, JEQ and JNE, a handler does the same whatever `fl` is, and keeps it. -/
theorem outcomeOf_withFl {i : Instr} (hc : i.op ≠ .cmp) (hq : i.op ≠ .jeq) (hn : i.op ≠ .jne)
    (s : State) (f : Bool) :
    outcomeOf i { s with fl := f } = { outcomeOf i s with fl := f } := by
  rw [outcomeOf, outcomeOf, handlerFault_withFl hq hn]
  cases handlerFault i s with
  | none => exact completed_withFl hc hq hn s f
  | some _ => rfl

/-- A handler that leaves no fault raised none. -/
theorem handlerFault_of_outcomeOf {i : Instr} {s : State} (h : (outcomeOf i s).fault = none) :
    handlerFault i s = none := by
  cases hf : handlerFault i s with
  | none => rfl
  | some _ => simp [outcomeOf, hf, raise_fault] at h

/-- A CMP that completes ends in the same state whatever `fl` was. -/
theorem outcomeOf_cmp_withFl {i : Instr} (hc : i.op = .cmp) {s : State}
    (h : (outcomeOf i s).fault = none) (f : Bool) :
    outcomeOf i { s with fl := f } = outcomeOf i s := by
  have hf : handlerFault i s = none := handlerFault_of_outcomeOf h
  have hf' : handlerFault i { s with fl := f } = none := by
    rw [handlerFault_withFl (by simp [hc]) (by simp [hc]), hf]
  rw [outcomeOf, outcomeOf, hf, hf']
  exact completed_cmp_withFl hc s f

theorem step_fl_of_not_cmp {s t : State} (h : step s = .next t)
    (hc : s.byteAt 0 ≠ opcodeByte .cmp) : t.fl = s.fl := by
  cases step_shape h with
  | idle => rfl
  | faulted => rfl
  | completed _ o _ ho _ =>
    have hne : o ≠ .cmp := fun e => hc ((byte_eq_opcodeByte_iff ho _).2 e)
    simpa using completed_fl (i := s.instrAt o) (by simpa using hne) s.handlerState

/-- A step of CMP with legal operands sets `fl` exactly when the two registers are equal (R124). -/
theorem step_cmp_fl {s t : State} {ra rb : RegIdx} (hr : s.ready = true) (hpc : s.pc.toNat ≤ 253)
    (hc : s.byteAt 0 = opcodeByte .cmp) (ha : (s.byteAt 1).toNat = ra.val)
    (hb : (s.byteAt 2).toNat = rb.val) (h : step s = .next t) :
    t.fl = true ↔ s.reg ra = s.reg rb := by
  have ho : opcodeOf (s.byteAt 0) = some .cmp := hc ▸ opcodeOf_opcodeByte .cmp
  have hf : handlerFault (s.instrAt .cmp) s.handlerState = none := handlerFault_cmp ha hb _
  have e := step_decoded_eq hr hpc ho (by decide)
  rw [outcomeOf, hf] at e
  obtain rfl := Host.Outcome.next.inj (e.symm.trans h)
  rw [endStep_fl, ← operandReg_eq ha, ← operandReg_eq hb]
  exact completed_cmp_fl (s.byteAt 1) (s.byteAt 2) s.handlerState

/-! ### halted -/

theorem instr_eq_hlt_iff (o : Op) (a b : Byte) : o.instr a b = .hlt ↔ o = .hlt := by
  cases o <;> simp [Op.instr]

/-- A step of a running core halts it exactly when it fetches HLT (R34, R92). -/
theorem step_halted_iff {s t : State} (h : step s = .next t) (hh : s.halted = false) :
    t.halted = true ↔ s.ready = true ∧ s.pc.toNat ≤ 255 ∧ s.byteAt 0 = opcodeByte .hlt := by
  cases step_shape h with
  | idle hr => simp [hh, hr]
  | faulted hr hne => simp [hh, hr, hne]
  | completed hr o hpc ho _ =>
    simp [hr, hpc, hh, completed_halted, instr_eq_hlt_iff, byte_eq_opcodeByte_iff ho]

theorem step_of_halted {s : State} (hh : s.halted = true) : step s = .next s :=
  step_not_ready (by simp [State.ready, hh])

theorem hostLoad_halted (bytes : List Byte) (s : State) :
    (hostLoad bytes s).2.halted = s.halted := by
  unfold hostLoad
  split
  · split <;> rfl
  · rfl
  · rfl

/-! ### pc -/

/-- A completed instruction sets `pc` to its row of R27's table. The sums are exact, since they stay
below 512 (R28). -/
theorem completed_pc {s : State} (hpc : s.pc.toNat ≤ 255) (o : Op) :
    (completed (s.instrAt o) s.handlerState).pc.toNat = s.nextPc o := by
  have hadd (u : State) (n : Nat) (hu : u.pc = s.pc) (hn : n ≤ 3) :
      (u.advance n).pc.toNat = s.pc.toNat + n := by
    rw [advance_pc_toNat u n (by rw [hu]; omega), hu]
  cases o
  case ldi | add | mul | cmp => exact hadd _ 3 rfl (by decide)
  case prn | push | pop => exact hadd _ 2 rfl (by decide)
  case call | ret | jmp => exact setPc_pc_toNat s _
  case jeq =>
    simp only [completed, State.nextPc, Op.instr, fetched_mk_fields]
    split
    · exact setPc_pc_toNat _ _
    · exact hadd _ 2 rfl (by decide)
  case jne =>
    simp only [completed, State.nextPc, Op.instr, fetched_mk_fields]
    split
    · exact hadd _ 2 rfl (by decide)
    · exact setPc_pc_toNat _ _
  case hlt => rfl

theorem step_pc_of_completed {s t : State} {o : Op} (hr : s.ready = true)
    (ho : opcodeOf (s.byteAt 0) = some o) (h : step s = .next t) (ht : t.fault = none) :
    t.pc.toNat = s.nextPc o := by
  cases step_shape h with
  | idle hr' => simp [hr] at hr'
  | faulted => simp at ht
  | completed _ o' hpc ho' _ =>
    obtain rfl : o' = o := Option.some.inj (ho'.symm.trans ho)
    exact completed_pc hpc o'

/-- A step that raises a fault leaves `pc` where it was (R165). -/
theorem step_pc_of_fault {s t : State} (hs : s.fault = none) (h : step s = .next t)
    (ht : t.fault ≠ none) : t.pc = s.pc := by
  cases step_shape h with
  | idle => rfl
  | faulted => rfl
  | completed => simp [hs] at ht

/-! ### The statements -/

/-- Settles O38: CMP alone writes `fl`, and only JEQ and JNE depend on it, handler by handler. -/
theorem flagIsWrittenByCmpAndReadByJumps : Obligations.FlagIsWrittenByCmpAndReadByJumps := by
  refine ⟨fun _ => rfl, fun s t h hne => ?_, fun s t ra rb hr hpc hc ha hb h => ?_,
    fun i s t f _ hq hn h => ?_⟩
  · by_contra hc
    exact hne (step_fl_of_not_cmp h hc)
  · exact step_cmp_fl hr hpc hc ha hb h
  · obtain rfl := Host.Outcome.next.inj ((exec_eq i s).symm.trans h)
    refine ⟨fun hc => ?_, fun hc ht => ?_⟩
    · rw [exec_eq, outcomeOf_withFl hc hq hn]
    · rw [exec_eq, outcomeOf_cmp_withFl hc ht]

/-- Settles O39: of the shapes of a step, only a completed HLT writes `halted`. -/
theorem haltedIsSetOnlyByHlt : Obligations.HaltedIsSetOnlyByHlt := by
  refine ⟨fun _ => rfl, fun s t h hh => step_halted_iff h hh, fun s t h hh => ?_,
    fun g bytes s => ⟨rfl, hostLoad_halted bytes s⟩⟩
  exact (Host.Outcome.next.inj ((step_of_halted hh).symm.trans h)).symm

/-- Settles O40: a completed step follows R27's table row by row, and a fault keeps `pc`. -/
theorem pcFollowsTheUpdateTable : Obligations.PcFollowsTheUpdateTable :=
  ⟨fun _ _ _ hr _ ho h ht => step_pc_of_completed hr ho h ht,
    fun _ _ hs h ht => step_pc_of_fault hs h ht⟩

end Sys2Proof.Machine
end

section
/-! PROOFS. The decoder under any map of distinct opcode values: what selects an opcode, and that the
opcode's format alone says how many of the bytes after it are used (30_encoding.md R71, R74). -/

namespace Sys2Proof

theorem opcodeOfWith_eq_some_iff {m : Op → Byte} (hm : Function.Injective m) (b : Byte) (o : Op) :
    opcodeOfWith m b = some o ↔ b = m o := by
  constructor
  · exact fun h => (opcodeOfWith_some h).symm
  · rintro rfl
    exact opcodeOfWith_self hm o

/-- With two bytes after the opcode byte, every format has its operand bytes at hand. -/
theorem decodeWith_of_opcodeOfWith {m : Op → Byte} {c : Byte} {o : Op}
    (h : opcodeOfWith m c = some o) (a b : Byte) (rest : List Byte) :
    decodeWith m (c :: a :: b :: rest) =
      .ok (o.instr a b, (a :: b :: rest).drop (o.format.length - 1)) := by
  cases o <;> simp [decodeWith, h, Op.format, Format.length, Op.instr]

/-- Settles O3: at most one opcode has the byte as its value, and the decoder reads the byte only
through the opcode so selected. -/
theorem opcodeSelectedByWholeByte : Obligations.OpcodeSelectedByWholeByte :=
  ⟨opcodeOfWith_eq_some_iff fun _ _ => opcodeByte_inj, fun _ hm =>
    ⟨opcodeOfWith_eq_some_iff hm, fun o => decodeWith_of_opcodeOfWith (opcodeOfWith_self hm o)⟩⟩

end Sys2Proof
end

section
/-! PROOFS. What faults a step can raise, and where: a handler raises only the three kinds that its
operands and SP can cause, and stages 1, 3 and 4 raise one kind each (40_fetch_decode_execute.md R91
to R94, 60_exceptions.md R171). -/

namespace Sys2Proof.Machine

/-- The fault kinds a handler can raise (R171, stage 5). -/
def handlerKinds : List FaultKind :=
  [.invalidRegister, .outOfBounds .stackOverflow, .outOfBounds .stackUnderflow]

theorem handlerFault_kind {i : Instr} {s : State} {k : FaultKind} {addr : Nat}
    {bad : Option OperandPos} (h : handlerFault i s = some (k, addr, bad)) : k ∈ handlerKinds := by
  unfold handlerFault at h
  split_ifs at h <;> cases h <;> decide

/-- A fault that a handler leaves in a state that had none is one the handler raised. -/
theorem outcomeOf_fault_kind {i : Instr} {s : State} {r : FaultRecord} (hs : s.fault = none)
    (h : (outcomeOf i s).fault = some r) : r.kind ∈ handlerKinds := by
  cases hf : handlerFault i s with
  | none => simp [outcomeOf, hf, hs] at h
  | some x =>
    simp only [outcomeOf, hf, raise_fault, Option.some.injEq] at h
    exact h ▸ handlerFault_kind hf

/-- The kinds of fault a step can raise, and the addresses at which a fetch can fail (R91, R93). -/
theorem step_fault_kind {s t : State} {r : FaultRecord} (hs : s.fault = none)
    (h : step s = .next t) (hf : t.fault = some r) :
    (255 < s.pc.toNat ∧ r.kind = .outOfBounds .fetchOpcode) ∨
    (254 ≤ s.pc.toNat ∧ r.kind = .outOfBounds .fetchOperand) ∨
    r.kind = .illegalInstruction ∨ r.kind ∈ handlerKinds := by
  cases hr : s.ready with
  | false =>
    obtain rfl := Host.Outcome.next.inj ((step_not_ready hr).symm.trans h)
    simp [hs] at hf
  | true =>
    rcases step_ready_cases hr with ⟨hpc, e⟩ | ⟨-, -, e⟩ | ⟨hpc, -, -, e⟩ | ⟨-, -, e⟩ |
      ⟨o, -, -, -, e⟩ <;> obtain rfl := Host.Outcome.next.inj (e.symm.trans h)
    · exact .inl ⟨hpc, (Option.some.inj hf) ▸ rfl⟩
    · simp [hs] at hf
    · exact .inr (.inl ⟨hpc, (Option.some.inj hf) ▸ rfl⟩)
    · exact .inr (.inr (.inl ((Option.some.inj hf) ▸ rfl)))
    · exact .inr (.inr (.inr (outcomeOf_fault_kind (s := s.handlerState) hs hf)))

/-- Every kind a step can raise is one of the six that a stage or a handler raises (R171). -/
theorem step_fault_kind_mem {s t : State} {r : FaultRecord} (hs : s.fault = none)
    (h : step s = .next t) (hf : t.fault = some r) :
    r.kind ∈ .outOfBounds .fetchOpcode :: .outOfBounds .fetchOperand :: .illegalInstruction ::
      handlerKinds := by
  rcases step_fault_kind hs h hf with ⟨-, e⟩ | ⟨-, e⟩ | e | e <;> simp [e]

/-! ### The statements -/

/-- Settles O25: the one operand read that can fail is the one at address 256, which a step at `pc`
of at most 253 does not make. -/
theorem everyOtherOpcodeReadsBothOperands : Obligations.EveryOtherOpcodeReadsBothOperands := by
  refine ⟨fun s hr ho hpc => ?_, fun s hpc => readOperands_in hpc, fun s t hr hpc h r hf hk => ?_⟩
  · exact ⟨_, _, step_operand_fault hr (by omega) (by omega) ho, raise_fault _ _ _ _, rfl, rfl,
      fun _ => rfl, rfl, rfl, rfl, rfl, rfl, fun _ => rfl⟩
  · obtain ⟨-, hs, -⟩ := (ready_iff s).1 hr
    rcases step_fault_kind hs h hf with ⟨hpc', -⟩ | ⟨hpc', -⟩ | e | e
    · omega
    · omega
    · cases e.symm.trans hk
    · exact absurd (hk ▸ e) (by decide)

/-- Settles O31: none of the internal kinds is among those a handler or a step can raise. -/
theorem noStepRaisesTheInternalFaults : Obligations.NoStepRaisesTheInternalFaults := by
  refine ⟨fun i s t r hs h hf => ?_, fun s t r hs h hf => ?_⟩
  · obtain rfl := Host.Outcome.next.inj ((exec_eq i s).symm.trans h)
    exact ne_of_mem_of_not_mem (outcomeOf_fault_kind hs hf) (by decide)
  · have hk := step_fault_kind_mem hs h hf
    exact ⟨ne_of_mem_of_not_mem hk (by decide), ne_of_mem_of_not_mem hk (by decide),
      ne_of_mem_of_not_mem hk (by decide)⟩

/-- Settles O22: HLT is found before any operand is read, and the state it leaves is halted, so it
takes no further step. -/
theorem hltHaltsAtEveryAddress : Obligations.HltHaltsAtEveryAddress := by
  refine ⟨fun s => ?_, fun s hr hpc ho => ⟨?_, step_of_halted rfl⟩⟩
  · exact ⟨_, exec_completed (i := .hlt) rfl, rfl, rfl, fun _ => rfl, rfl, rfl, fun _ => rfl,
      rfl, rfl, rfl, rfl⟩
  · rw [step_hlt hr hpc ho, fetched, ho]

/-- Settles O26: stage 4 raises the fault once both operand bytes are latched, and no later stage
runs. -/
theorem illegalOpcodeFaults : Obligations.IllegalOpcodeFaults := by
  intro s hr hpc ho
  obtain ⟨hh, -, -⟩ := (ready_iff s).1 hr
  exact ⟨_, _, step_illegal hr hpc ho, raise_fault _ _ _ _, rfl, rfl, rfl, rfl, rfl, hh,
    fun _ => rfl, rfl, rfl, rfl, fun _ => rfl⟩

end Sys2Proof.Machine
end

section
/-! PROOFS. The ALU (42_alu.md R120, R121, R125): one equation per operation, then the statement about all of
them. -/

namespace Sys2Proof.Machine

@[simp] theorem equalFlag_eq_true_iff (x y : Byte) : equalFlag x y = true ↔ x = y :=
  decide_eq_true_iff

section Equations
variable (a b : RegIdx) (regs : Vector Byte 8) (fl : Bool)

theorem alu_add :
    alu .add a b regs fl = .ok (regs.set a (wrap8 (regs[a].toNat + regs[b].toNat)), fl) := rfl

theorem alu_mul :
    alu .mul a b regs fl = .ok (regs.set a (wrap8 (regs[a].toNat * regs[b].toNat)), fl) := rfl

theorem alu_cmp : alu .cmp a b regs fl = .ok (regs, equalFlag regs[a] regs[b]) := rfl

theorem alu_other (code : Byte) : alu (.other code) a b regs fl = .error .invalidAluOperation := rfl

end Equations

/-- Settles O9: the value ADD and MUL store is `wrap8` of the exact result, so it is that result
modulo 256, and CMP's flag decides equality. -/
theorem aluArithmeticIsModulo256 : Obligations.AluArithmeticIsModulo256 := by
  refine ⟨?_, fun code a b regs fl => alu_other a b regs fl code⟩
  rintro a b regs fl _ _ rfl rfl
  refine ⟨?add, ?mul, ?cmp⟩
  case add => exact ⟨_, alu_add a b regs fl, toNat_wrap8 _⟩
  case mul => exact ⟨_, alu_mul a b regs fl, toNat_wrap8 _⟩
  case cmp => exact ⟨_, alu_cmp a b regs fl, equalFlag_eq_true_iff _ _⟩

end Sys2Proof.Machine
end

section
/-! PROOFS. What a step leaves in `ir` (10_state.md R33), the state a reset and a load leave
(70_reset_and_hazards.md R207), and from both the first step's fetch (R192). -/

namespace Sys2Proof.Machine

/-- A handler leaves `ir` alone, whether it completes or faults. -/
@[simp] theorem outcomeOf_ir (i : Instr) (s : State) : (outcomeOf i s).ir = s.ir := by
  rw [outcomeOf]
  split
  · exact raise_ir _ _ _ _
  · exact completed_ir i s

/-- Only stage 1 writes `ir`, so a step leaves the byte it fetched there, also when it faults later. -/
theorem step_ir {s t : State} (hr : s.ready = true) (h : step s = .next t) :
    t.ir = if s.pc.toNat ≤ 255 then s.byteAt 0 else s.ir := by
  rcases step_ready_cases hr with ⟨hpc, e⟩ | ⟨hpc, -, e⟩ | ⟨-, hpc, -, e⟩ | ⟨hpc, -, e⟩ |
    ⟨o, hpc, -, -, e⟩ <;> obtain rfl := Host.Outcome.next.inj (e.symm.trans h)
  · rw [if_neg (by omega), raise_ir]
  · rw [if_pos hpc, fetched]
  · rw [if_pos hpc, raise_ir, fetched]
  · rw [if_pos (by omega), State.endStep, raise_ir, fetched]
  · rw [if_pos (by omega), State.endStep, outcomeOf_ir, fetched]

section Launch
variable (g : Vector Byte 7) {bytes : List Byte} (hl : bytes.length ≤ 256)
include hl

theorem launchState_eq :
    launchState g bytes = { State.resetWith g with mem := Memory.writeBytes [] 0 bytes } := by
  rw [launchState, hostLoad_fits (s := State.resetWith g) rfl hl]
  rfl

theorem launchState_ready : (launchState g bytes).ready = true := by
  rw [launchState_eq g hl]
  rfl

theorem launchState_pc : (launchState g bytes).pc = 0#9 := by
  rw [launchState_eq g hl]
  rfl

theorem read_launchState (i : Nat) :
    Memory.read (launchState g bytes).mem i = bytes.getD i 0#8 := by
  have hr := Memory.read_writeBytes bytes (m := []) rfl 0 i (by omega)
  simpa [launchState_eq g hl] using hr

end Launch

/-- Settles O54: the launch state is ready with `pc` at 0, so stage 1 of its step copies `M[0]` to
`ir`, and the load put the first byte there. -/
theorem firstStepFetchesAddressZero : Obligations.FirstStepFetchesAddressZero := by
  intro g bytes t hl
  have hpc := launchState_pc g hl
  refine ⟨hpc, fun h => ?_⟩
  have hir : t.ir = Memory.read (launchState g bytes).mem 0 := by
    simpa [hpc, State.byteAt] using step_ir (launchState_ready g hl) h
  refine ⟨hir, ?_⟩
  rw [hir, read_launchState g hl, List.headD_eq_getD]

end Sys2Proof.Machine
end

section
/-! PROOFS. The decoder and the encoder as inverses: `decodeWith_ok_iff` says once which byte sequences
decode, and to what (30_encoding.md R70, R71, R74, R76, R80). -/

namespace Sys2Proof

/-- The operand bytes an opcode keeps of two are as many as its format has (R71). -/
theorem operandBytes_instr (o : Op) (a b : Byte) :
    (o.instr a b).operandBytes = [a, b].take (o.format.length - 1) := by cases o <;> rfl

/-- A byte sequence decodes exactly when its first byte selects the opcode of the instruction and the
instruction's operand bytes come next. -/
theorem decodeWith_ok_iff {m : Op → Byte} {bytes : List Byte} {i : Instr} {rest : List Byte} :
    decodeWith m bytes = .ok (i, rest) ↔
      ∃ c, opcodeOfWith m c = some i.op ∧ bytes = c :: (i.operandBytes ++ rest) := by
  constructor
  · intro h
    cases bytes with
    | nil => cases h
    | cons c tail =>
      cases ho : opcodeOfWith m c with
      | none => simp [decodeWith, ho] at h
      | some o =>
        simp only [decodeWith, ho] at h
        split at h <;> cases h <;>
          exact ⟨c, by rw [ho, Machine.op_instr], by simp [operandBytes_instr, Format.length, *]⟩
  · rintro ⟨c, ho, rfl⟩
    cases i <;> simp_all [decodeWith, Instr.op, Instr.operandBytes, Op.format, Op.instr]

theorem decodeWith_encodeWith {m : Op → Byte} (hm : Function.Injective m) (i : Instr)
    (rest : List Byte) : decodeWith m (encodeWith m i ++ rest) = .ok (i, rest) :=
  decodeWith_ok_iff.2 ⟨m i.op, opcodeOfWith_self hm i.op, rfl⟩

theorem operandBytes_length (i : Instr) : i.operandBytes.length + 1 = i.op.format.length := by
  cases i <;> rfl

theorem encode_length (i : Instr) : (encode i).length = i.op.format.length := operandBytes_length i

theorem Format.length_bounds (f : Format) : 1 ≤ f.length ∧ f.length ≤ 3 := by cases f <;> decide

/-- A decoded instruction takes as many bytes as its opcode's format has. -/
theorem decode_length {c : Byte} {tail rest : List Byte} {i : Instr}
    (h : decode (c :: tail) = .ok (i, rest)) :
    opcodeOf c = some i.op ∧ (c :: tail).length - rest.length = i.op.format.length := by
  obtain ⟨c', ho, e⟩ := decodeWith_ok_iff.1 h
  obtain ⟨rfl, rfl⟩ := List.cons.inj e
  have hl := operandBytes_length i
  exact ⟨ho, by simp only [List.length_cons, List.length_append]; omega⟩

theorem decode_of_opcodeOf_none {b : Byte} (h : opcodeOf b = none) (rest : List Byte) :
    decode (b :: rest) = .error (.illegalOpcode b) := by
  have h' : opcodeOfWith opcodeByte b = none := h
  simp only [decode, decodeWith, h']

/-! ### The statements -/

/-- Settles O1: the first byte of an encoding selects the instruction's opcode, whatever distinct values
the map has. -/
theorem decodeOfEncodeIsIdentity : Obligations.DecodeOfEncodeIsIdentity :=
  have hm : Function.Injective opcodeByte := fun _ _ => opcodeByte_inj
  ⟨hm, decodeWith_encodeWith hm, fun _ hm' => decodeWith_encodeWith hm'⟩

/-- Settles O2: the byte that selects an opcode is that opcode's value. -/
theorem decodedBytesAreTheEncoding : Obligations.DecodedBytesAreTheEncoding := by
  intro m bytes i rest h
  obtain ⟨c, ho, rfl⟩ := decodeWith_ok_iff.1 h
  rw [encodeWith, opcodeOfWith_some ho, List.cons_append]

/-- Settles O6: the two instructions have the opcode that the byte selects, so the same format. -/
theorem opcodeAloneSetsTheLength : Obligations.OpcodeAloneSetsTheLength := by
  refine ⟨fun b rest rest' i i' after after' h h' => ?_, fun i => ?_⟩
  · obtain ⟨ho, hl⟩ := decode_length h
    obtain ⟨ho', hl'⟩ := decode_length h'
    have hop : i.op = i'.op := Option.some.inj (ho.symm.trans ho')
    rw [hl, hl', hop]
  · rw [encode_length]
    exact ⟨rfl, i.op.format.length_bounds⟩

/-- Settles O4: a byte that selects an opcode is one of the thirteen values. -/
theorem otherOpcodeBytesAreIllegal : Obligations.OtherOpcodeBytesAreIllegal := by
  refine ⟨fun b rest hb => decode_of_opcodeOf_none ?_ rest, by decide +kernel, by decide⟩
  cases ho : opcodeOf b with
  | none => rfl
  | some o =>
    rw [opcodeOf_some ho] at hb
    cases o <;> exact absurd (by decide) hb

/-- Settles O5: each word, decoded, is evaluated. -/
theorem wordsOfTheTableDecode : Obligations.WordsOfTheTableDecode := by
  unfold Obligations.WordsOfTheTableDecode
  decide

end Sys2Proof
end

section
/-! PROOFS. The memory: one access (00_scope.md R12, R13; 20_memory.md R52, R56), and the canonical form
of the list that holds it (log 13). -/

namespace Sys2Proof.Machine

/-- Of two canonical memories that read the same, neither begins at a later address than the other. -/
theorem Memory.head_le_of_read_eq {k k' : Nat} {v v' : Byte} {m m' : Memory}
    (hm : Memory.wf ((k, v) :: m) = true) (hm' : Memory.wf ((k', v') :: m') = true)
    (h : ∀ addr, Memory.read ((k, v) :: m) addr = Memory.read ((k', v') :: m') addr) : k' ≤ k := by
  obtain ⟨-, hv, -, -⟩ := (Memory.wf_cons _ _ _).1 hm
  obtain ⟨-, -, hab, -⟩ := (Memory.wf_cons _ _ _).1 hm'
  by_contra hlt
  have hk := h k
  rw [Memory.read_cons, if_pos rfl, Memory.read_cons, if_neg (by omega),
    Memory.read_of_above hab (by omega)] at hk
  exact hv hk

/-- What a canonical memory reads from its second cell on: nothing at its first address. -/
theorem Memory.read_tail {k : Nat} {v : Byte} {m : Memory} (hm : Memory.wf ((k, v) :: m) = true)
    (addr : Nat) :
    Memory.read m addr = if addr = k then 0#8 else Memory.read ((k, v) :: m) addr := by
  obtain ⟨-, -, hab, -⟩ := (Memory.wf_cons _ _ _).1 hm
  split
  · exact Memory.read_of_above hab (by omega)
  · rw [Memory.read_cons, if_neg (by omega)]

/-- A canonical memory that lists a cell does not read as the empty one. -/
theorem Memory.cons_read_ne {k : Nat} {v : Byte} {m : Memory}
    (hm : Memory.wf ((k, v) :: m) = true) : Memory.read ((k, v) :: m) k ≠ Memory.read [] k := by
  obtain ⟨-, hv, -, -⟩ := (Memory.wf_cons _ _ _).1 hm
  rwa [Memory.read_cons, if_pos rfl, Memory.read_nil]

theorem Memory.eq_of_read_eq {m m' : Memory} (hm : Memory.wf m = true) (hm' : Memory.wf m' = true)
    (h : ∀ addr, Memory.read m addr = Memory.read m' addr) : m = m' := by
  induction m generalizing m' with
  | nil =>
    cases m' with
    | nil => rfl
    | cons c' m' => exact absurd (h _).symm (Memory.cons_read_ne hm')
  | cons c m ih =>
    obtain ⟨k, v⟩ := c
    cases m' with
    | nil => exact absurd (h _) (Memory.cons_read_ne hm)
    | cons c' m' =>
      obtain ⟨k', v'⟩ := c'
      obtain rfl : k = k' := Nat.le_antisymm (Memory.head_le_of_read_eq hm' hm fun a => (h a).symm)
        (Memory.head_le_of_read_eq hm hm' h)
      obtain rfl : v = v' := by simpa [Memory.read_cons] using h k
      obtain ⟨-, -, -, hwf⟩ := (Memory.wf_cons _ _ _).1 hm
      obtain ⟨-, -, -, hwf'⟩ := (Memory.wf_cons _ _ _).1 hm'
      rw [ih hwf hwf' fun a => by rw [Memory.read_tail hm, Memory.read_tail hm', h a]]

/-- Settles O7: the cell written reads as what was written, and every other one as before. -/
theorem memReadAndMemWriteOfOneCell : Obligations.MemReadAndMemWriteOfOneCell := by
  intro s addr v hw
  refine ⟨fun ha => ?_, fun ha => ⟨memRead_ge s (by omega), memWrite_ge s (by omega) v⟩⟩
  have ha' : addr < 256 := by omega
  refine ⟨memRead_lt s ha', _, memWrite_lt s ha' v, rfl, Memory.write_wf hw _ _, ?_, ?_⟩
  · simp [memRead_lt _ ha', Memory.read_write hw ha']
  · intro b hb
    rw [Memory.read_write hw ha', if_neg hb]

/-- Settles O8: by induction on the lists, whose first cells must agree. -/
theorem canonicalMemoryIsUnique : Obligations.CanonicalMemoryIsUnique :=
  fun _ _ => Memory.eq_of_read_eq

end Sys2Proof.Machine
end

section
/-! PROOFS. The faults of a handler, of a step, and their records: when each is raised and that it is
precise (40_fetch_decode_execute.md R91 to R98; 60_exceptions.md R163 to R172). -/

namespace Sys2Proof.Machine

/-! ### The fault of a handler -/

section Handler
variable {i : Instr} {s : State}

theorem handlerFault_badA (hu : Op.usesA s.fl i.op = true) (ha : 8 ≤ (operandA i).toNat) :
    handlerFault i s = some (.invalidRegister, 0, some .operandA) := if_pos ⟨hu, ha⟩

theorem handlerFault_badB (ha : (operandA i).toNat < 8) (hu : Op.usesB i.op = true)
    (hb : 8 ≤ (operandB i).toNat) :
    handlerFault i s = some (.invalidRegister, 0, some .operandB) := by
  rw [handlerFault, if_neg (by omega), if_pos ⟨hu, hb⟩]

/-- The stack instructions use no second register. -/
theorem not_usesB_of_stack {o : Op} (h : Op.pushes o = true ∨ Op.pops o = true) :
    Op.usesB o = false := by
  cases o <;> simp_all [Op.pushes, Op.pops, Op.usesB]

theorem not_pushes_of_pops {o : Op} (h : Op.pops o = true) : Op.pushes o = false := by
  cases o <;> simp_all [Op.pushes, Op.pops]

section LegalA
variable (ha : Op.usesA s.fl i.op = true → (operandA i).toNat < 8)
include ha

theorem handlerFault_overflow (hp : Op.pushes i.op = true) (hsp : s.sp = 0#8) :
    handlerFault i s = some (.outOfBounds .stackOverflow, s.sp.toNat, none) := by
  rw [handlerFault, if_neg fun h => absurd (ha h.1) (by omega),
    if_neg (by simp [not_usesB_of_stack (.inl hp)]), if_pos ⟨hp, hsp⟩]

theorem handlerFault_underflow (hp : Op.pops i.op = true) (hsp : 0xF4 ≤ s.sp.toNat) :
    handlerFault i s = some (.outOfBounds .stackUnderflow, s.sp.toNat, none) := by
  rw [handlerFault, if_neg fun h => absurd (ha h.1) (by omega),
    if_neg (by simp [not_usesB_of_stack (.inr hp)]), if_neg (by simp [not_pushes_of_pops hp]),
    if_pos ⟨hp, hsp⟩]

end LegalA

/-- A handler raises no fault exactly where the operands it uses and SP are legal (R171). -/
theorem handlerFault_eq_none_iff : handlerFault i s = none ↔
    (Op.usesA s.fl i.op = true → (operandA i).toNat < 8) ∧
    (Op.usesB i.op = true → (operandB i).toNat < 8) ∧
    (Op.pushes i.op = true → s.sp ≠ 0#8) ∧ (Op.pops i.op = true → s.sp.toNat < 0xF4) := by
  rw [handlerFault]
  split_ifs <;> simp_all [Config.stackBase]

/-- The address that a handler's fault records goes by its kind (R163). -/
theorem handlerFault_addr {k : FaultKind} {addr : Nat} {bad : Option OperandPos}
    (h : handlerFault i s = some (k, addr, bad)) : addr = s.faultAddr k := by
  unfold handlerFault at h
  split_ifs at h <;> cases h <;> rfl

end Handler

/-! ### The first fault of the priority list -/

/-- An opcode that uses operand_a keeps that byte (R71, R170). -/
theorem operandA_instr {f : Bool} {o : Op} (h : Op.usesA f o = true) (a b : Byte) :
    operandA (o.instr a b) = a := by
  cases o
  case ret | hlt => cases h
  all_goals rfl

theorem operandB_instr {o : Op} (h : Op.usesB o = true) (a b : Byte) :
    operandB (o.instr a b) = b := by
  cases o
  case add | mul | cmp => rfl
  all_goals cases h

/-- An opcode that uses operand_b uses operand_a as well. -/
theorem usesA_of_usesB {f : Bool} {o : Op} (h : Op.usesB o = true) : Op.usesA f o = true := by
  cases o
  case add | mul | cmp => rfl
  all_goals cases h

/-- The part of the priority list that concerns the handler gives the handler's fault (R172). -/
theorem handlerFault_firstFault (s : State) (o : Op) :
    (handlerFault (s.instrAt o) s.handlerState).map (fun x => (x.1, x.2.2)) =
      if Op.usesA s.fl o ∧ 8 ≤ (s.byteAt 1).toNat then some (.invalidRegister, some .operandA)
      else if Op.usesB o ∧ 8 ≤ (s.byteAt 2).toNat then some (.invalidRegister, some .operandB)
      else if Op.pushes o ∧ s.sp = 0#8 then some (.outOfBounds .stackOverflow, none)
      else if Op.pops o ∧ Config.stackBase ≤ s.sp.toNat then
        some (.outOfBounds .stackUnderflow, none)
      else none := by
  have ha : (Op.usesA s.fl o = true ∧ 8 ≤ (operandA (s.instrAt o)).toNat) ↔
      (Op.usesA s.fl o = true ∧ 8 ≤ (s.byteAt 1).toNat) :=
    and_congr_right fun h => by rw [operandA_instr h]
  have hb : (Op.usesB o = true ∧ 8 ≤ (operandB (s.instrAt o)).toNat) ↔
      (Op.usesB o = true ∧ 8 ≤ (s.byteAt 2).toNat) :=
    and_congr_right fun h => by rw [operandB_instr h]
  rw [handlerFault, op_instr, show s.handlerState.fl = s.fl from rfl,
    show s.handlerState.sp = s.sp from rfl]
  simp only [ha, hb, apply_ite (Option.map _), Option.map_some, Option.map_none]

theorem firstFault_of_fetch {s : State} (h : 255 < s.pc.toNat) :
    s.firstFault = some (.outOfBounds .fetchOpcode, none) := if_pos h

theorem firstFault_of_hlt {s : State} (h : s.pc.toNat ≤ 255) (ho : s.byteAt 0 = opcodeByte .hlt) :
    s.firstFault = none := by
  rw [State.firstFault, if_neg (by omega), if_pos ho]

theorem firstFault_of_operand {s : State} (h : 254 ≤ s.pc.toNat) (h' : s.pc.toNat ≤ 255)
    (ho : s.byteAt 0 ≠ opcodeByte .hlt) :
    s.firstFault = some (.outOfBounds .fetchOperand, none) := by
  rw [State.firstFault, if_neg (by omega), if_neg ho, if_pos (by omega)]

theorem ne_hlt_of_opcodeOf_none {b : Byte} (h : opcodeOf b = none) : b ≠ opcodeByte .hlt := by
  rintro rfl
  simp [opcodeOf_opcodeByte] at h

theorem firstFault_of_illegal {s : State} (h : s.pc.toNat ≤ 253)
    (ho : opcodeOf (s.byteAt 0) = none) : s.firstFault = some (.illegalInstruction, none) := by
  rw [State.firstFault, if_neg (by omega), if_neg (ne_hlt_of_opcodeOf_none ho),
    if_neg (by omega), ho]

theorem firstFault_of_legal {s : State} {o : Op} (h : s.pc.toNat ≤ 255)
    (h' : o ≠ .hlt → s.pc.toNat ≤ 253) (ho : opcodeOf (s.byteAt 0) = some o) :
    s.firstFault =
      (handlerFault (s.instrAt o) s.handlerState).map fun x => (x.1, x.2.2) := by
  by_cases hne : o = .hlt
  · subst hne
    exact firstFault_of_hlt h (opcodeOf_some ho)
  · have := h' hne
    rw [handlerFault_firstFault, State.firstFault, if_neg (by omega),
      if_neg fun e => hne ((byte_eq_opcodeByte_iff ho _).1 e), if_neg (by omega), ho]

/-- The list names an operand exactly where the kind is InvalidRegister (R163). -/
theorem firstFault_badOperand {s : State} {k : FaultKind} {bad : Option OperandPos}
    (h : s.firstFault = some (k, bad)) : bad.isSome = true ↔ k = .invalidRegister := by
  unfold State.firstFault at h
  split_ifs at h
  · cases h; simp
  · cases h; simp
  · split at h
    · cases h; simp
    · split_ifs at h <;> cases h <;> simp

/-! ### The fault of a step -/

/-- The record of the fault `k` of a step of `s`, as R163 lays it out. -/
def State.faultRecord (s : State) (k : FaultKind) (bad : Option OperandPos) : FaultRecord where
  kind := k
  pc := s.pc
  ir := if k = .outOfBounds .fetchOpcode then none else some (s.byteAt 0)
  operands :=
    if k = .outOfBounds .fetchOpcode ∨ k = .outOfBounds .fetchOperand then none
    else some (s.byteAt 1, s.byteAt 2)
  addr := BitVec.ofNat 9 (s.faultAddr k)
  badOperand := bad

/-- The state after the fault `k` of a step of `s` (R165). -/
def State.faulted (s : State) (k : FaultKind) (bad : Option OperandPos) : State :=
  { s with
    ir := if k = .outOfBounds .fetchOpcode then s.ir else s.byteAt 0
    fault := some (s.faultRecord k bad), latch := none, loadPhase := .stepped }

/-- A fault that a handler raises is the one of `State.faulted`, once the latches are emptied. -/
theorem raise_handlerState {s : State} {o : Op} {k : FaultKind} {addr : Nat}
    {bad : Option OperandPos}
    (hf : handlerFault (s.instrAt o) s.handlerState = some (k, addr, bad)) :
    (raise k addr bad s.handlerState).endStep = s.faulted k bad := by
  have hk := handlerFault_kind hf
  have hop : k ≠ .outOfBounds .fetchOpcode := ne_of_mem_of_not_mem hk (by decide)
  have hopd : k ≠ .outOfBounds .fetchOperand := ne_of_mem_of_not_mem hk (by decide)
  obtain rfl := handlerFault_addr hf
  simp only [State.faulted, State.faultRecord, raise, hop, hopd, or_self, if_false]
  rfl

/-- What a step that may begin does, said once: it takes the first fault of the priority list, or, if
there is none, completes its instruction (R97, R164, R172). -/
theorem step_ready_outcome {s : State} (hr : s.ready = true) :
    (∃ k bad, s.firstFault = some (k, bad) ∧ step s = .next (s.faulted k bad)) ∨
    (∃ o, s.firstFault = none ∧ s.pc.toNat ≤ 255 ∧ (o ≠ .hlt → s.pc.toNat ≤ 253) ∧
      opcodeOf (s.byteAt 0) = some o ∧ handlerFault (s.instrAt o) s.handlerState = none ∧
      step s = .next (completed (s.instrAt o) s.handlerState).endStep) := by
  rcases step_ready_cases hr with ⟨h, e⟩ | ⟨h, ho, e⟩ | ⟨h, h', ho, e⟩ | ⟨h, ho, e⟩ |
    ⟨o, h, ho, hne, e⟩
  · exact .inl ⟨_, _, firstFault_of_fetch h, e⟩
  · exact .inr ⟨.hlt, firstFault_of_hlt h ho, h, fun hn => absurd rfl hn,
      ho ▸ opcodeOf_opcodeByte .hlt, rfl, e⟩
  · exact .inl ⟨_, _, firstFault_of_operand h h' ho, e⟩
  · exact .inl ⟨_, _, firstFault_of_illegal h ho, e⟩
  · have hff := firstFault_of_legal (by omega) (fun _ => h) ho
    rw [outcomeOf] at e
    cases hf : handlerFault (s.instrAt o) s.handlerState with
    | none =>
      rw [hf] at hff e
      exact .inr ⟨o, hff, by omega, fun _ => h, ho, hf, e⟩
    | some x =>
      obtain ⟨k, addr, bad⟩ := x
      rw [hf] at hff e
      exact .inl ⟨k, bad, hff, e.trans (congrArg _ (raise_handlerState hf))⟩

theorem step_firstFault {s : State} {k : FaultKind} {bad : Option OperandPos}
    (hr : s.ready = true) (h : s.firstFault = some (k, bad)) :
    step s = .next (s.faulted k bad) := by
  rcases step_ready_outcome hr with ⟨k', bad', h', e⟩ | ⟨o, h', -⟩
  · obtain ⟨rfl, rfl⟩ := Prod.mk.inj (Option.some.inj (h'.symm.trans h))
    exact e
  · cases h'.symm.trans h

/-- A step that raises a fault raises the first of the list. -/
theorem step_eq_faulted {s t : State} {r : FaultRecord} (h : step s = .next t) (hs : s.fault = none)
    (ht : t.fault = some r) :
    ∃ k bad, s.firstFault = some (k, bad) ∧ t = s.faulted k bad ∧ r = s.faultRecord k bad := by
  cases hr : s.ready with
  | false =>
    obtain rfl := Host.Outcome.next.inj ((step_not_ready hr).symm.trans h)
    simp [hs] at ht
  | true =>
    rcases step_ready_outcome hr with ⟨k, bad, hf, e⟩ | ⟨o, -, -, -, -, -, e⟩ <;>
      obtain rfl := Host.Outcome.next.inj (e.symm.trans h)
    · exact ⟨k, bad, hf, rfl, (Option.some.inj ht).symm⟩
    · simp [hs] at ht

/-- The record of a step's fault fits the state after it (R163, R165). -/
theorem faultRecord_fits {s : State} {k : FaultKind} {bad : Option OperandPos}
    (h : s.firstFault = some (k, bad)) : (s.faultRecord k bad).fits s.pc (s.faulted k bad).ir := by
  refine ⟨rfl, ?_, ?_, fun hk => ?_, firstFault_badOperand h⟩
  · by_cases hk : k = .outOfBounds .fetchOpcode <;> simp [State.faultRecord, State.faulted, hk]
  · simp only [State.faultRecord]
    split_ifs <;> simp <;> tauto
  · cases k with
    | outOfBounds sub => exact absurd rfl (hk sub)
    | _ => rfl

/-! ### Steps and handlers always answer -/

theorem exists_step (s : State) : ∃ t, step s = .next t := by
  cases hr : s.ready with
  | false => exact ⟨s, step_not_ready hr⟩
  | true =>
    rcases step_ready_outcome hr with ⟨_, _, _, e⟩ | ⟨_, _, _, _, _, _, e⟩ <;> exact ⟨_, e⟩

theorem step_eq_stepState (s : State) : step s = .next (stepState s) := by
  obtain ⟨t, h⟩ := exists_step s
  rw [stepState, h]

theorem stepState_of_step {s t : State} (h : step s = .next t) : stepState s = t := by
  rw [stepState, h]

/-- A state that a step leaves as it is stays so for any number of steps. -/
theorem runFor_of_step_self {s : State} (h : step s = .next s) (n : Nat) : runFor n s = s := by
  induction n with
  | zero => rfl
  | succ n ih => rw [runFor, stepState_of_step h, ih]

/-- Three bytes that decode begin with an opcode, and give the instruction it makes of the others. -/
theorem decode_three_ok {b a c : Byte} {i : Instr} {rest : List Byte}
    (h : decode [b, a, c] = .ok (i, rest)) : opcodeOf b = some i.op ∧ i = i.op.instr a c := by
  cases ho : opcodeOf b with
  | none => simp [decode_three_illegal ho] at h
  | some o =>
    obtain ⟨rest', h'⟩ := decode_three (a := a) (c := c) ho
    obtain ⟨rfl, -⟩ := Prod.mk.inj (Except.ok.inj (h'.symm.trans h))
    exact ⟨by rw [op_instr], by rw [op_instr]⟩

/-! ### The statements -/

/-- Settles O23: stages 1 to 4 give the handler the instruction that the bytes decode to. -/
theorem stepRunsTheDecodedInstruction : Obligations.StepRunsTheDecodedInstruction := by
  intro s i rest hr h
  obtain ⟨ho, hi⟩ := decode_three_ok h
  refine ⟨fun hne hpc => ?_, ?_⟩
  · have hop : i.op ≠ .hlt := fun e => hne (hi.trans ((instr_eq_hlt_iff _ _ _).2 e))
    rw [step_decoded hr hpc ho hop, ← hi]
    rfl
  · rintro rfl hpc
    exact step_hlt hr hpc (opcodeOf_some ho)

/-- Settles O24: `FetchOpcode` is the first fault of the list, and its address is `pc`. -/
theorem fetchBeyondMemoryFaults : Obligations.FetchBeyondMemoryFaults := by
  intro s hr hpc
  rw [FaultsWith, step_firstFault hr (firstFault_of_fetch hpc)]
  simp [State.faulted, State.faultRecord, State.faultAddr]

/-- Settles O27: an illegal operand that is used is the first fault of the handler's part of the list. -/
theorem badRegisterOperandFaults : Obligations.BadRegisterOperandFaults := by
  intro s o hr hpc ho
  have hff := firstFault_of_legal (by omega) (fun _ => hpc) ho
  refine ⟨fun hu ha => ?_, fun hu ha hb => ?_⟩
  · rw [handlerFault_badA (by simpa using hu) (by rwa [operandA_instr hu])] at hff
    exact step_firstFault hr hff
  · have hua : Op.usesA s.fl o = true := usesA_of_usesB hu
    rw [handlerFault_badB (by rwa [operandA_instr hua]) (by simpa using hu)
      (by rwa [operandB_instr hu])] at hff
    exact step_firstFault hr hff

/-- Settles O28: with its operand legal, a stack instruction's first fault is that of its bound. -/
theorem stackBoundsFault : Obligations.StackBoundsFault := by
  intro s o hr hpc ho ha
  have hff := firstFault_of_legal (by omega) (fun _ => hpc) ho
  have ha' : Op.usesA s.fl (s.instrAt o).op = true → (operandA (s.instrAt o)).toNat < 8 := by
    intro hu
    rw [op_instr] at hu
    rw [operandA_instr hu]
    exact ha hu
  refine ⟨fun hp hsp => ?_, fun hp hsp => ?_⟩
  · rw [handlerFault_overflow (s := s.handlerState) ha' (by simpa using hp) hsp] at hff
    rw [FaultsWith, step_firstFault hr hff]
    simp [State.faulted, State.faultRecord, State.faultAddr, hsp]
  · rw [handlerFault_underflow (s := s.handlerState) ha' (by simpa using hp) hsp] at hff
    exact step_firstFault hr hff

/-- Settles O29: a step takes the first fault of the list, and completes where the list gives none. -/
theorem faultIsTheFirstOfThePriorityList : Obligations.FaultIsTheFirstOfThePriorityList := by
  intro s hr
  obtain ⟨-, hs, -⟩ := (ready_iff s).1 hr
  rcases step_ready_outcome hr with ⟨k, bad, hf, e⟩ | ⟨o, hf, -, -, -, -, e⟩
  · exact ⟨_, e, hf.symm⟩
  · exact ⟨_, e, by simp [hf, hs]⟩

/-- Settles O30: the state after a fault is `State.faulted`, whose record fits it. -/
theorem faultsArePrecise : Obligations.FaultsArePrecise := by
  intro s t r h hs ht
  obtain ⟨k, bad, hf, rfl, rfl⟩ := step_eq_faulted h hs ht
  refine ⟨rfl, faultRecord_fits hf, rfl, fun ab hab => ?_⟩
  simp only [State.faultRecord] at hab
  split at hab
  · cases hab
  · exact (Option.some.inj hab).symm

/-- Settles O32: faults are next states, for a step and for a handler. -/
theorem everyStepAnswersANextState : Obligations.EveryStepAnswersANextState :=
  ⟨exists_step, fun i s => ⟨_, exec_eq i s⟩⟩

/-- Settles O33: none of the three kinds of state is ready. -/
theorem stoppedCoreTakesNoStep : Obligations.StoppedCoreTakesNoStep := by
  intro s h
  have hr : s.ready = false := by
    rw [← Bool.not_eq_true, ready_iff]
    rintro ⟨hh, hs, hl⟩
    rcases h with h | h | h
    · simp [hh] at h
    · simp [hs] at h
    · exact hl h
  exact ⟨step_not_ready hr, runFor_of_step_self (step_not_ready hr)⟩

end Sys2Proof.Machine
end

section
/-! PROOFS. What a step writes, part by part: `out`, the registers, memory, `ir` and the latches
(10_state.md R25, R33, R38, R39; 20_memory.md R51). -/

namespace Sys2Proof.Machine

/-! ### What a completed instruction writes -/

/-- Only PRN writes `out` (R39). -/
theorem completed_out {i : Instr} (h : i.op ≠ .prn) (s : State) : (completed i s).out = s.out := by
  cases i
  case prn => exact absurd rfl h
  all_goals simp [completed, pushed, apply_ite State.out]

/-- The opcodes whose first operand selects a destination (R25, the writes column). -/
def destOps : List Op := [.ldi, .add, .mul, .pop]

/-- The opcodes that write SP of themselves (R25, the writes column). -/
def spOps : List Op := [.push, .pop, .call, .ret]

theorem usesA_of_mem_destOps {f : Bool} {o : Op} (h : o ∈ destOps) : Op.usesA f o = true := by
  simp only [destOps, List.mem_cons, List.not_mem_nil, or_false] at h
  rcases h with rfl | rfl | rfl | rfl <;> rfl

/-- A register that is neither the destination nor a written SP keeps its value (R25). -/
theorem completed_reg {i : Instr} {r : RegIdx} (hd : i.op ∈ destOps → operandReg (operandA i) ≠ r)
    (hsp : i.op ∈ spOps → r ≠ 7) (s : State) : (completed i s).reg r = s.reg r := by
  cases i
  case ldi | add | mul =>
    have ha := hd (by simp [Instr.op, destOps])
    exact (reg_setReg s _ r _).trans (if_neg ha)
  case push | call =>
    have h7 := hsp (by simp [Instr.op, spOps])
    exact (reg_decSp s r).trans (if_neg h7)
  case ret =>
    have h7 := hsp (by simp [Instr.op, spOps])
    exact (reg_incSp _ r).trans (if_neg h7)
  case pop =>
    have ha := hd (by simp [Instr.op, destOps])
    have h7 := hsp (by simp [Instr.op, spOps])
    exact ((reg_incSp _ r).trans (if_neg h7)).trans ((reg_setReg s _ r _).trans (if_neg ha))
  case prn | cmp | jmp | hlt => rfl
  case jeq | jne =>
    simp only [completed]
    split <;> rfl

/-- Only PUSH and CALL push (R131). -/
theorem pushes_iff (o : Op) : Op.pushes o = true ↔ o = .push ∨ o = .call := by
  cases o <;> decide

/-- What was latched has no part in a handler, beyond being kept (R77). -/
theorem completed_withLatch (i : Instr) (s : State) (l : Option (Byte × Byte)) :
    completed i { s with latch := l } = { completed i s with latch := l } := by
  cases i
  case jeq | jne =>
    simp only [completed]
    split <;> rfl
  all_goals rfl

/-- What is latched has no part in whether a handler raises a fault. -/
theorem handlerFault_withLatch (i : Instr) (s : State) (l : Option (Byte × Byte)) :
    handlerFault i { s with latch := l } = handlerFault i s := rfl

/-! ### ir and the latches of a step -/

/-- Stage 1 overwrites `ir` where it succeeds, so the step does not depend on it (R33). -/
theorem step_withIr_in {s : State} (hr : s.ready = true) (hpc : s.pc.toNat ≤ 255) (b : Byte) :
    step { s with ir := b } = step s := by
  have hf : fetchOpcode { s with ir := b }.beginStep = fetchOpcode s.beginStep :=
    (fetchOpcode_in (s := { s with ir := b }.beginStep) hpc).trans
      (fetchOpcode_in (s := s.beginStep) hpc).symm
  rw [step, if_pos (show State.ready { s with ir := b } = true from hr), step, if_pos hr,
    fetchInstr, hf, fetchInstr]

/-- Where the fetch fails, `ir` is kept and not recorded (R33, R163). -/
theorem step_withIr_out {s t : State} (hr : s.ready = true) (hpc : 255 < s.pc.toNat) (b : Byte)
    (h : step s = .next t) : step { s with ir := b } = .next { t with ir := b } := by
  obtain rfl := Host.Outcome.next.inj ((step_fetch_fault hr hpc).symm.trans h)
  exact step_fetch_fault (s := { s with ir := b }) hr hpc

/-- A step empties the latches before it reads any (R38). -/
theorem step_withLatch {s : State} (hr : s.ready = true) (l : Option (Byte × Byte)) :
    step { s with latch := l } = step s := by
  rw [step, if_pos (show State.ready { s with latch := l } = true from hr), step, if_pos hr]
  rfl

/-! ### The statements -/

/-- Settles O37: of the completed instructions only PRN writes `out`, and its operand is legal. -/
theorem outputGrowsOnlyByPrn : Obligations.OutputGrowsOnlyByPrn := by
  intro s t h
  cases step_shape h with
  | idle => exact .inl rfl
  | faulted => exact .inl rfl
  | completed hr o hpc ho hf =>
    by_cases hp : o = .prn
    · subst hp
      obtain ⟨ha, -⟩ := handlerFault_eq_none_iff.1 hf
      exact .inr ⟨hr, opcodeOf_some ho, operandReg (s.byteAt 1), operandReg_val (ha rfl), rfl⟩
    · exact .inl (completed_out (by rwa [op_instr]) s.handlerState)

/-- Settles O41: a register that is neither the destination nor a written SP keeps its value. -/
theorem registersChangeOnlyByTheTable : Obligations.RegistersChangeOnlyByTheTable := by
  intro s t r h hne
  cases step_shape h with
  | idle => exact absurd rfl hne
  | faulted => exact absurd rfl hne
  | completed hr o hpc ho hf =>
    refine ⟨o, ho, ?_⟩
    by_contra hn
    obtain ⟨hd, hsp⟩ := not_or.1 hn
    refine hne (completed_reg (fun ho' e => ?_) (fun ho' e => ?_) s.handlerState)
    · rw [op_instr] at ho'
      have hu : Op.usesA s.fl o = true := usesA_of_mem_destOps ho'
      obtain ⟨ha, -⟩ := handlerFault_eq_none_iff.1 hf
      rw [op_instr, operandA_instr hu] at ha
      rw [operandA_instr hu] at e
      exact hd ⟨ho', e ▸ operandReg_val (ha hu)⟩
    · rw [op_instr] at ho'
      exact hsp ⟨ho', e⟩

/-- Settles O42: only a push writes memory, and only the cell at the decremented SP. -/
theorem memoryChangesOnlyByPushAndCall : Obligations.MemoryChangesOnlyByPushAndCall := by
  intro s t addr hw h hne
  cases step_shape h with
  | idle => exact absurd rfl hne
  | faulted => exact absurd rfl hne
  | completed hr o hpc ho hf =>
    rcases completed_mem (s.instrAt o) s.handlerState with hm | ⟨hp, v, hm⟩
    · exact absurd (congrArg (Memory.read · addr) hm) hne
    · obtain ⟨-, -, hsp, -⟩ := handlerFault_eq_none_iff.1 hf
      have hread := Memory.read_write hw s.decSp.sp.isLt addr v
      rw [op_instr] at hp hsp
      refine ⟨?_, hsp hp, ?_⟩
      · rw [byte_eq_opcodeByte_iff ho, byte_eq_opcodeByte_iff ho]
        exact (pushes_iff o).1 hp
      · by_contra ha
        rw [if_neg ha] at hread
        exact hne ((congrArg (Memory.read · addr) hm).trans hread)

/-- Settles O43: stage 1 alone writes `ir`, and nothing reads it before. -/
theorem irHoldsTheFetchedOpcode : Obligations.IrHoldsTheFetchedOpcode := by
  refine ⟨fun _ => rfl, fun s t hr h => step_ir hr h, fun s t b hr h => ?_⟩
  split
  · rw [step_withIr_in hr ‹_› b, h]
  · exact step_withIr_out hr (by omega) b h

/-- Settles O44: a step empties the latches first, and a handler that completes only keeps them. -/
theorem latchedBytesCarryNothing : Obligations.LatchedBytesCarryNothing := by
  refine ⟨fun s l hr => step_withLatch hr l, fun i s t l _ h ht => ?_⟩
  obtain rfl := Host.Outcome.next.inj ((exec_eq i s).symm.trans h)
  have hf : handlerFault i s = none := handlerFault_of_outcomeOf ht
  rw [exec_completed ((handlerFault_withLatch i s l).trans hf), completed_withLatch, outcomeOf, hf]

end Sys2Proof.Machine
end

section
/-! PROOFS. The invariant `CoreInv`: it holds at reset, every step and every request of the host keeps
it, and so it holds along every run (10_state.md R31, R38; 60_exceptions.md R163, R165;
70_reset_and_hazards.md R200, R201, R206). -/

namespace Sys2Proof.Machine

/-! ### A step keeps the invariant -/

/-- A completed instruction keeps the canonical form of memory. -/
theorem completed_mem_wf (i : Instr) {s : State} (h : Memory.wf s.mem = true) :
    Memory.wf (completed i s).mem = true := by
  rcases completed_mem i s with e | ⟨-, v, e⟩ <;> rw [e]
  · exact h
  · exact Memory.write_wf h _ v

/-- From 0 to 253 every row of R27's table stays in 0 to 256; HLT keeps `pc` (R31). -/
theorem nextPc_le {s : State} {o : Op} (h : s.pc.toNat ≤ 255) (h' : o ≠ .hlt → s.pc.toNat ≤ 253) :
    s.nextPc o ≤ 256 := by
  have hbyte (b : Byte) : b.toNat ≤ 256 := Nat.le_of_lt b.isLt
  cases o
  case hlt => exact Nat.le_succ_of_le h
  case ldi | add | mul | cmp => exact Nat.add_le_add_right (h' (by decide)) 3
  case prn | push | pop => exact Nat.le_succ_of_le (Nat.add_le_add_right (h' (by decide)) 2)
  case call | ret | jmp => exact hbyte _
  case jeq =>
    have := h' (by decide)
    simp only [State.nextPc]
    split
    · exact hbyte _
    · omega
  case jne =>
    have := h' (by decide)
    simp only [State.nextPc]
    split
    · omega
    · exact hbyte _

/-- The invariant after a fault: nothing but `ir` and the record has changed. -/
theorem coreInv_faulted {s : State} (hi : CoreInv s) (hr : s.ready = true) {k : FaultKind}
    {bad : Option OperandPos} (hf : s.firstFault = some (k, bad)) : CoreInv (s.faulted k bad) := by
  obtain ⟨hh, -, -⟩ := (ready_iff s).1 hr
  have hh' : (s.faulted k bad).halted = false := hh
  refine ⟨hi.mem_wf, hi.pc_le, rfl, fun h => ?_, fun h => ?_, fun r hr' => ?_, fun h => ?_⟩
  · simp [hh'] at h
  · simp [hh'] at h
  · obtain rfl := Option.some.inj hr'
    exact faultRecord_fits hf
  · exact absurd rfl h

/-- The invariant after a completed instruction: `pc` follows the table, and only HLT halts. -/
theorem coreInv_completed {s : State} {o : Op} (hi : CoreInv s) (hr : s.ready = true)
    (h : s.pc.toNat ≤ 255) (h' : o ≠ .hlt → s.pc.toNat ≤ 253)
    (ho : opcodeOf (s.byteAt 0) = some o) :
    CoreInv (completed (s.instrAt o) s.handlerState).endStep := by
  obtain ⟨hh, hs, -⟩ := (ready_iff s).1 hr
  have hfault : (completed (s.instrAt o) s.handlerState).endStep.fault = none := by simp [hs]
  refine ⟨completed_mem_wf _ hi.mem_wf, ?_, rfl, fun _ => hfault, fun hhalt => ?_, fun r hr' => ?_,
    fun hl => ?_⟩
  · rw [endStep_pc, completed_pc h]
    exact nextPc_le h h'
  · have hhlt : o = .hlt := by
      by_contra hne
      have : s.instrAt o ≠ .hlt := fun e => hne ((instr_eq_hlt_iff _ _ _).1 e)
      simp [completed_halted, this, hh] at hhalt
    subst hhlt
    exact ⟨h, opcodeOf_some ho, opcodeOf_some ho⟩
  · cases hfault.symm.trans hr'
  · simp [fetched] at hl

theorem step_keeps_coreInv {s t : State} (hi : CoreInv s) (h : step s = .next t) : CoreInv t := by
  cases hr : s.ready with
  | false =>
    obtain rfl := Host.Outcome.next.inj ((step_not_ready hr).symm.trans h)
    exact hi
  | true =>
    rcases step_ready_outcome hr with ⟨k, bad, hf, e⟩ | ⟨o, -, hpc, hpc', ho, -, e⟩ <;>
      obtain rfl := Host.Outcome.next.inj (e.symm.trans h)
    · exact coreInv_faulted hi hr hf
    · exact coreInv_completed hi hr hpc hpc' ho

theorem stepState_keeps_coreInv {s : State} (hi : CoreInv s) : CoreInv (stepState s) :=
  step_keeps_coreInv hi (step_eq_stepState s)

theorem runFor_keeps_coreInv {s : State} (hi : CoreInv s) (n : Nat) : CoreInv (runFor n s) := by
  induction n generalizing s with
  | zero => exact hi
  | succ n ih => exact ih (stepState_keeps_coreInv hi)

/-! ### Reset and load -/

@[simp] theorem resetWith_sp (g : Vector Byte 7) : (State.resetWith g).sp = 0xF4#8 := by
  simp [sp_eq, State.resetWith, Config.spReset]

theorem resetWith_coreInv (g : Vector Byte 7) : CoreInv (State.resetWith g) where
  mem_wf := rfl
  pc_le := Nat.zero_le _
  latch_none := rfl
  halted_no_fault _ := rfl
  halted_at_hlt h := by cases h
  fault_fits _ h := by cases h
  unstepped _ := ⟨rfl, rfl, rfl, resetWith_sp g, rfl, rfl, rfl⟩

/-- Before the first step memory may be written: no other field depends on it there. -/
theorem coreInv_withMem {s : State} (hi : CoreInv s) (hp : s.loadPhase ≠ .stepped) {m : Memory}
    (hm : Memory.wf m = true) : CoreInv { s with mem := m } := by
  obtain ⟨-, -, -, -, hh, -, -⟩ := hi.unstepped hp
  exact { hi with mem_wf := hm, halted_at_hlt := fun h => by simp [hh] at h }

/-- A failed load moves the load window, which the invariant treats as before the first step. -/
theorem coreInv_loadFailed {s : State} (hi : CoreInv s) (hp : s.loadPhase ≠ .stepped) :
    CoreInv { s with loadPhase := .loadFailed } :=
  { hi with unstepped := fun _ => hi.unstepped hp }

theorem hostLoad_refused {s : State} (hp : s.loadPhase ≠ .beforeFirstStep) (bytes : List Byte) :
    hostLoad bytes s = (.refused, s) := by
  cases h : s.loadPhase with
  | beforeFirstStep => exact absurd h hp
  | stepped | loadFailed => simp only [hostLoad, h]

theorem hostLoad_keeps_coreInv {s : State} (hi : CoreInv s) (bytes : List Byte) :
    CoreInv (hostLoad bytes s).2 := by
  by_cases hp : s.loadPhase = .beforeFirstStep
  · have hp' : s.loadPhase ≠ .stepped := by simp [hp]
    rcases Nat.lt_or_ge 256 bytes.length with hl | hl
    · rw [hostLoad_tooLong hp hl]
      exact coreInv_loadFailed hi hp'
    · rw [hostLoad_fits hp hl]
      exact coreInv_withMem hi hp' (Memory.writeBytes_wf bytes hi.mem_wf 0)
  · rw [hostLoad_refused hp]
    exact hi

theorem hostRequest_keeps_coreInv (q : HostRequest) {s : State} (hi : CoreInv s) :
    CoreInv (hostRequest q s).2 := by
  cases q with
  | reset g => exact resetWith_coreInv g
  | load bytes => exact hostLoad_keeps_coreInv hi bytes
  | step => exact stepState_keeps_coreInv hi
  | read => exact hi

theorem hostRequests_keep_coreInv (qs : List HostRequest) {s : State} (hi : CoreInv s) :
    CoreInv (qs.foldl (fun s q => (hostRequest q s).2) s) := by
  induction qs generalizing s with
  | nil => exact hi
  | cons q qs ih => exact ih (hostRequest_keeps_coreInv q hi)

/-! ### The end of a run -/

theorem RunEnds.coreInv {s t : State} (hi : CoreInv s) (h : RunEnds s t) : CoreInv t := by
  obtain ⟨n, rfl, -, -⟩ := h
  exact runFor_keeps_coreInv hi n

/-- A run ends after one number of steps only, since it has not ended before. -/
theorem RunEnds.unique {s t u : State} (ht : RunEnds s t) (hu : RunEnds s u) : u = t := by
  obtain ⟨n, rfl, hn, hn'⟩ := ht
  obtain ⟨m, rfl, hm, hm'⟩ := hu
  rcases Nat.lt_trichotomy m n with h | rfl | h
  · simp [hn' m h] at hm
  · rfl
  · simp [hm' n h] at hn

/-! ### The statements -/

/-- Settles O34: a step faults, completes, or does not begin, and each keeps the invariant. -/
theorem stepKeepsTheInvariant : Obligations.StepKeepsTheInvariant :=
  fun _ _ => step_keeps_coreInv

/-- Settles O35: the reset state is in its load window, not halted and without a fault. -/
theorem resetHasTheInvariant : Obligations.ResetHasTheInvariant :=
  ⟨resetWith_coreInv, resetWith_coreInv Config.gprReset⟩

/-- Settles O36: request by request, then by induction on the sequence. -/
theorem hostRequestsKeepTheInvariant : Obligations.HostRequestsKeepTheInvariant :=
  ⟨fun q _ => hostRequest_keeps_coreInv q,
    fun g qs => hostRequests_keep_coreInv qs (resetWith_coreInv g)⟩

/-- Settles O52: by the invariant a halted core has no fault, so an end is of one kind. -/
theorem aRunHasOneEndOfTwoKinds : Obligations.ARunHasOneEndOfTwoKinds := by
  intro s t hi h
  refine ⟨?_, fun u hu => h.unique hu⟩
  have hit : CoreInv t := h.coreInv hi
  obtain ⟨n, -, hend, -⟩ := h
  cases hh : t.halted with
  | true =>
    have hf := hit.halted_no_fault hh
    exact .inl ⟨rfl, hf, by simp [State.succeeded, hh, hf]⟩
  | false =>
    have hf : t.fault ≠ none := by simpa [State.ended, hh, Option.isSome_iff_ne_none] using hend
    exact .inr ⟨rfl, hf, by simp [State.succeeded, hh]⟩

end Sys2Proof.Machine
end

section
/-! PROOFS. The instructions, one by one: encoding, completion with its frame, and the faults of its own
(41_load_and_output.md, 42_alu.md, 43_stack.md, 44_control_transfer.md). -/

namespace Sys2Proof.Machine

/-! ### What the instructions share -/

/-- Stage 3 fails at 254 and 255 whatever the opcode, HLT apart (R93). -/
theorem operandFetchFaults {o : Op} (h : o ≠ .hlt) : OperandFetchFaults (opcodeByte o) := by
  intro s hr hb hpc hpc'
  have hne : s.byteAt 0 ≠ opcodeByte .hlt := fun e => h (opcodeByte_inj (hb.symm.trans e))
  rw [← hb]
  exact step_operand_fault hr hpc hpc' hne

/-- A handler completes where the operands it uses and SP are legal. -/
theorem exec_legal {i : Instr} {s : State} (ha : Op.usesA s.fl i.op = true → (operandA i).toNat < 8)
    (hb : Op.usesB i.op = true → (operandB i).toNat < 8)
    (hpush : Op.pushes i.op = true → s.sp ≠ 0#8)
    (hpop : Op.pops i.op = true → s.sp.toNat < 0xF4) : exec i s = .next (completed i s) :=
  exec_completed (handlerFault_eq_none_iff.2 ⟨ha, hb, hpush, hpop⟩)

theorem exec_badA {i : Instr} {s : State} (hu : Op.usesA s.fl i.op = true)
    (ha : 8 ≤ (operandA i).toNat) : exec i s = raisesInvalidRegister .operandA s :=
  exec_raises (handlerFault_badA hu ha)

theorem exec_badB {i : Instr} {s : State} (ha : (operandA i).toNat < 8)
    (hu : Op.usesB i.op = true) (hb : 8 ≤ (operandB i).toNat) :
    exec i s = raisesInvalidRegister .operandB s :=
  exec_raises (handlerFault_badB ha hu hb)

theorem legal_of_reg {a : Byte} {r : RegIdx} (h : a.toNat = r.val) : a.toNat < 8 := h ▸ r.isLt

/-- `pc + n` is exact for every instruction that a step runs (R28). -/
theorem advance_pc_of_le {s u : State} (hu : u.pc = s.pc) (hpc : s.pc.toNat ≤ 253) {n : Nat}
    (hn : n ≤ 3) : (u.advance n).pc.toNat = s.pc.toNat + n := by
  rw [advance_pc_toNat u n (by rw [hu]; omega), hu]

/-! ### LDI, PRN and the ALU instructions -/

/-- What an instruction does that stores `v` in `R[r]` and falls through by 3. -/
theorem setReg_advance_effect {s : State} (hpc : s.pc.toNat ≤ 253) (r : RegIdx) (v : Nat) :
    SameRegsBut r s ((s.setReg r v).advance 3) ∧
      ((s.setReg r v).advance 3).pc.toNat = s.pc.toNat + 3 ∧
      ((s.setReg r v).advance 3).fl = s.fl ∧ ((s.setReg r v).advance 3).out = s.out ∧
      SameMemory s ((s.setReg r v).advance 3) ∧ SameControl s ((s.setReg r v).advance 3) := by
  refine ⟨fun q hq => ?_, advance_pc_of_le rfl hpc (by decide), rfl, rfl, fun _ => rfl,
    rfl, rfl, rfl, rfl, rfl⟩
  rw [reg_advance, reg_setReg, if_neg hq.symm]

/-- The register that such an instruction writes. -/
theorem reg_setReg_advance (s : State) (r : RegIdx) (v : Nat) :
    ((s.setReg r v).advance 3).reg r = wrap8 v := by
  rw [reg_advance, reg_setReg, if_pos rfl]

/-- Settles O10: LDI stores its immediate as it stands. -/
theorem ldiLoadsImmediate : Obligations.LdiLoadsImmediate := by
  refine ⟨fun _ _ => rfl, fun a imm s r ha hpc => ?_, fun a imm s ha => exec_badA rfl ha,
    operandFetchFaults (o := .ldi) (by decide)⟩
  refine ⟨_, exec_legal (fun _ => legal_of_reg ha) nofun nofun nofun, ?_⟩
  rw [completed, operandReg_eq ha]
  exact ⟨by rw [reg_setReg_advance, wrap8_toNat], setReg_advance_effect hpc r _⟩

/-- Settles O11: PRN emits the register and falls through. -/
theorem prnAppendsRegisterToOutput : Obligations.PrnAppendsRegisterToOutput := by
  refine ⟨fun _ => rfl, fun a s r ha hpc => ?_, fun a s ha => exec_badA rfl ha,
    operandFetchFaults (o := .prn) (by decide)⟩
  refine ⟨_, exec_legal (fun _ => legal_of_reg ha) nofun nofun nofun, ?_⟩
  rw [completed, operandReg_eq ha]
  exact ⟨rfl, fun _ => rfl, advance_pc_of_le rfl hpc (by decide), rfl, fun _ => rfl, rfl, rfl, rfl,
    rfl, rfl⟩

/-- Settles O12: ADD stores the exact sum, reduced modulo 256. -/
theorem addIsSumModulo256 : Obligations.AddIsSumModulo256 := by
  refine ⟨fun _ _ => rfl, fun a b s ra rb ha hb hpc => ?_, fun a b s ha => exec_badA rfl ha,
    fun a b s ha hb => exec_badB ha rfl hb, operandFetchFaults (o := .add) (by decide)⟩
  refine ⟨_, exec_legal (fun _ => legal_of_reg ha) (fun _ => legal_of_reg hb) nofun nofun, ?_⟩
  rw [completed, operandReg_eq ha, operandReg_eq hb]
  exact ⟨by rw [reg_setReg_advance, toNat_wrap8], setReg_advance_effect hpc ra _⟩

/-- Settles O13: MUL stores the exact product, reduced modulo 256. -/
theorem mulIsProductModulo256 : Obligations.MulIsProductModulo256 := by
  refine ⟨fun _ _ => rfl, fun a b s ra rb ha hb hpc => ?_, fun a b s ha => exec_badA rfl ha,
    fun a b s ha hb => exec_badB ha rfl hb, operandFetchFaults (o := .mul) (by decide)⟩
  refine ⟨_, exec_legal (fun _ => legal_of_reg ha) (fun _ => legal_of_reg hb) nofun nofun, ?_⟩
  rw [completed, operandReg_eq ha, operandReg_eq hb]
  exact ⟨by rw [reg_setReg_advance, toNat_wrap8], setReg_advance_effect hpc ra _⟩

/-- Settles O14: CMP writes only `fl`, which decides equality. -/
theorem cmpWritesTheEqualFlag : Obligations.CmpWritesTheEqualFlag := by
  refine ⟨fun _ _ => rfl, fun a b s ra rb ha hb hpc => ?_, fun a b s ha => exec_badA rfl ha,
    fun a b s ha hb => exec_badB ha rfl hb, operandFetchFaults (o := .cmp) (by decide)⟩
  refine ⟨_, exec_legal (fun _ => legal_of_reg ha) (fun _ => legal_of_reg hb) nofun nofun, ?_⟩
  rw [completed, operandReg_eq ha, operandReg_eq hb]
  exact ⟨equalFlag_eq_true_iff _ _, fun _ => rfl, advance_pc_of_le rfl hpc (by decide), rfl,
    fun _ => rfl, rfl, rfl, rfl, rfl, rfl⟩

/-! ### The stack instructions -/

/-- What a push does, before `pc` moves (R130, R131). -/
theorem pushed_effect {s : State} (hw : Memory.wf s.mem = true) (v : Nat) :
    (pushed s v).sp.toNat = s.sp.toNat - 1 ∧ SameRegsBut 7 s (pushed s v) ∧
      Memory.read (pushed s v).mem s.decSp.sp.toNat = wrap8 v ∧
      SameMemoryBut s.decSp.sp.toNat s (pushed s v) := by
  have hread (b : Nat) := Memory.read_write hw s.decSp.sp.isLt b (wrap8 v)
  refine ⟨sp_decSp_toNat s, fun q hq => ?_, ?_, fun b hb => ?_⟩
  · rw [pushed_reg, reg_decSp, if_neg hq]
  · exact (hread _).trans (if_pos rfl)
  · exact (hread b).trans (if_neg hb)

/-- Reading a register after SP's decrement matters for SP only (R133, R141). -/
theorem reg_decSp_of_ne {s : State} {r : RegIdx} (h : r ≠ 7) : s.decSp.reg r = s.reg r := by
  rw [reg_decSp, if_neg h]

theorem exec_overflow {i : Instr} {s : State}
    (ha : Op.usesA s.fl i.op = true → (operandA i).toNat < 8) (hp : Op.pushes i.op = true)
    (hsp : s.sp = 0#8) :
    exec i s = .next (raise (.outOfBounds .stackOverflow) s.sp.toNat none s) :=
  exec_raises (handlerFault_overflow ha hp hsp)

theorem exec_underflow {i : Instr} {s : State}
    (ha : Op.usesA s.fl i.op = true → (operandA i).toNat < 8) (hp : Op.pops i.op = true)
    (hsp : 0xF4 ≤ s.sp.toNat) :
    exec i s = .next (raise (.outOfBounds .stackUnderflow) s.sp.toNat none s) :=
  exec_raises (handlerFault_underflow ha hp hsp)

/-- Settles O15: PUSH stores below SP what the register holds after the decrement. -/
theorem pushStoresBelowTheStackPointer : Obligations.PushStoresBelowTheStackPointer := by
  refine ⟨fun _ => rfl, fun a s r ha hsp hpc hw => ?_, fun a s ha => exec_badA rfl ha,
    fun a s ha hsp => exec_overflow (fun _ => ha) rfl hsp,
    operandFetchFaults (o := .push) (by decide)⟩
  refine ⟨_, exec_legal (fun _ => legal_of_reg ha) nofun (fun _ => hsp) nofun, ?_⟩
  obtain ⟨hsp', hregs, hcell, hmem⟩ := pushed_effect hw (s.decSp.reg r).toNat
  rw [wrap8_toNat] at hcell
  rw [completed, operandReg_eq ha]
  refine ⟨hsp', hregs, sp_decSp_toNat s, hcell, reg_decSp_of_ne, ?_, hmem,
    advance_pc_of_le rfl hpc (by decide), rfl, rfl, rfl, rfl, rfl, rfl, rfl⟩
  rintro rfl
  rfl

/-- Settles O16: POP loads the register first, so that POP R7 raises the byte it popped. -/
theorem popLoadsAndRaisesTheStackPointer : Obligations.PopLoadsAndRaisesTheStackPointer := by
  refine ⟨fun _ => rfl, fun a s r ha hsp hpc => ?_, fun a s ha => exec_badA rfl ha,
    fun a s ha hsp => exec_underflow (fun _ => ha) rfl hsp,
    operandFetchFaults (o := .pop) (by decide)⟩
  refine ⟨_, exec_legal (fun _ => legal_of_reg ha) nofun nofun (fun _ => hsp), ?_⟩
  rw [completed, operandReg_eq ha]
  refine ⟨fun hr => ⟨?_, ?_⟩, ?_, fun q hq h7 => ?_, advance_pc_of_le rfl hpc (by decide), rfl, rfl,
    fun _ => rfl, rfl, rfl, rfl, rfl, rfl⟩
  · simp [hr]
  · simp only [sp_advance, sp_incSp, sp_setReg, if_neg hr, toNat_wrap8]
    omega
  · rintro rfl
    simp
  · simp [h7, hq.symm]

/-- Settles O17: CALL pushes `pc + 2`, which fits a byte, and jumps. -/
theorem callPushesTheReturnAddress : Obligations.CallPushesTheReturnAddress := by
  refine ⟨fun _ => rfl, fun a s r ha hsp hpc hw => ?_, fun a s ha => exec_badA rfl ha,
    fun a s ha hsp => exec_overflow (fun _ => ha) rfl hsp,
    operandFetchFaults (o := .call) (by decide)⟩
  refine ⟨_, exec_legal (fun _ => legal_of_reg ha) nofun (fun _ => hsp) nofun, ?_⟩
  obtain ⟨hsp', hregs, hcell, hmem⟩ := pushed_effect hw (s.pc.toNat + 2)
  have hret : (wrap8 (s.pc.toNat + 2)).toNat = s.pc.toNat + 2 := by
    rw [toNat_wrap8]
    omega
  rw [completed, operandReg_eq ha]
  refine ⟨hsp', hregs, sp_decSp_toNat s, (congrArg BitVec.toNat hcell).trans hret, hmem,
    fun hr => ?_, ?_, rfl, rfl, rfl, rfl, rfl, rfl, rfl⟩
  · rw [setPc_pc_toNat, reg_decSp_of_ne hr]
  · rintro rfl
    exact setPc_pc_toNat _ _

/-- Settles O18: RET pops into `pc`. -/
theorem retPopsTheReturnAddress : Obligations.RetPopsTheReturnAddress := by
  refine ⟨rfl, fun s hsp => ?_, fun s hsp => exec_underflow nofun rfl hsp,
    operandFetchFaults (o := .ret) (by decide)⟩
  refine ⟨_, exec_legal nofun nofun nofun (fun _ => hsp), setPc_pc_toNat s _, ?_, fun q hq => ?_,
    rfl, rfl, fun _ => rfl, rfl, rfl, rfl, rfl, rfl⟩
  · simp only [completed, sp_incSp, sp_setPc, toNat_wrap8]
    omega
  · simp [completed, hq]

/-- Settles O48: every SP is below 256, so the check never fires. -/
theorem stackBase256SwitchesTheCheckOff : Obligations.StackBase256SwitchesTheCheckOff := by
  refine ⟨fun a s r ha => ?_, fun s => ?_⟩
  · refine ⟨((s.setReg r (Memory.read s.mem s.sp.toNat).toNat).incSp.advance 2), ?_, rfl,
      fun hr => ⟨?_, ?_⟩, ?_⟩
    · rw [execPopWith, withReg_legal ha, popThen_item s.sp.isLt]
    · simp [hr]
    · simp [hr]
    · rintro rfl
      simp
  · refine ⟨(s.setPc (Memory.read s.mem s.sp.toNat).toNat).incSp, ?_, rfl, setPc_pc_toNat s _, ?_⟩
    · rw [execRetWith, popThen_item s.sp.isLt]
    · simp

/-! ### The jumps -/

/-- What setting `pc` leaves (R144): everything else. -/
theorem setPc_frame (s : State) (n : Nat) :
    SameRegs s (s.setPc n) ∧ (s.setPc n).fl = s.fl ∧ (s.setPc n).out = s.out ∧
      SameMemory s (s.setPc n) ∧ SameControl s (s.setPc n) :=
  ⟨fun _ => rfl, rfl, rfl, fun _ => rfl, rfl, rfl, rfl, rfl, rfl⟩

/-- Settles O19: JMP sets `pc`, and a register value is a target as it stands. -/
theorem jmpSetsPcToTheRegister : Obligations.JmpSetsPcToTheRegister := by
  refine ⟨fun _ => rfl, fun a s r ha => ?_, fun a s ha => exec_badA rfl ha,
    operandFetchFaults (o := .jmp) (by decide)⟩
  refine ⟨_, exec_legal (fun _ => legal_of_reg ha) nofun nofun nofun, ?_⟩
  rw [completed, operandReg_eq ha]
  exact ⟨setPc_pc_toNat s _, setPc_frame s _⟩

/-- Settles O20: JEQ taken is JMP; not taken it reads no operand and falls through. -/
theorem jeqJumpsWhenTheFlagIsSet : Obligations.JeqJumpsWhenTheFlagIsSet := by
  refine ⟨fun _ => rfl, fun a s hpc ha => ?_, fun a s hfl ha => exec_badA hfl ha,
    operandFetchFaults (o := .jeq) (by decide)⟩
  refine ⟨_, exec_legal ha nofun nofun nofun, ?_⟩
  cases hfl : s.fl with
  | true =>
    rw [completed, if_pos hfl]
    refine ⟨fun _ r hr => ?_, nofun, hfl ▸ setPc_frame s _⟩
    rw [operandReg_eq hr, setPc_pc_toNat]
  | false =>
    rw [completed, if_neg (by simp [hfl])]
    exact ⟨nofun, fun _ => advance_pc_of_le rfl hpc (by decide), hfl ▸ setPc_frame s _⟩

/-- Settles O21: JNE taken is JMP; not taken it reads no operand and falls through. -/
theorem jneJumpsWhenTheFlagIsClear : Obligations.JneJumpsWhenTheFlagIsClear := by
  refine ⟨fun _ => rfl, fun a s hpc ha => ?_,
    fun a s hfl ha => exec_badA (by simpa [Instr.op, Op.usesA] using hfl) ha,
    operandFetchFaults (o := .jne) (by decide)⟩
  refine ⟨_, exec_legal (fun hu => ha (by simpa [Instr.op, Op.usesA] using hu)) nofun nofun nofun,
    ?_⟩
  cases hfl : s.fl with
  | false =>
    rw [completed, if_neg (by simp [hfl])]
    refine ⟨fun _ r hr => ?_, nofun, hfl ▸ setPc_frame s _⟩
    rw [operandReg_eq hr, setPc_pc_toNat]
  | true =>
    rw [completed, if_pos hfl]
    exact ⟨nofun, fun _ => advance_pc_of_le rfl hpc (by decide), hfl ▸ setPc_frame s _⟩

end Sys2Proof.Machine
end

section
/-! PROOFS. The laws over several steps: push and pop, call and return, a jump to itself, a fetch of a
pushed byte, and how much the stack holds (43_stack.md R135, R136; 44_control_transfer.md R143, R144;
20_memory.md R63; 70_reset_and_hazards.md R213). -/

namespace Sys2Proof.Machine

/-! ### The state after a step that completes -/

/-- The state after a step of `s` that completes `i`: the handler's effect on `s` itself, with the
opcode in `ir`, no latch filled and the load window over. -/
def State.after (s : State) (i : Instr) : State :=
  { completed i s with ir := s.byteAt 0, latch := none, loadPhase := .stepped }

/-- No instruction reads `ir`, the latches or the load window. -/
theorem completed_handlerState (i : Instr) (s : State) :
    (completed i s.handlerState).endStep = s.after i := by
  cases i
  case jeq | jne =>
    simp only [completed, State.after, fetched]
    split <;> rfl
  all_goals rfl

theorem step_after {s : State} (o : Op) (hr : s.ready = true) (hpc : s.pc.toNat ≤ 253)
    (ho : s.byteAt 0 = opcodeByte o) (hne : o ≠ .hlt) (hf : handlerFault (s.instrAt o) s = none) :
    step s = .next (s.after (s.instrAt o)) := by
  have hf' : handlerFault (s.instrAt o) s.handlerState = none := hf
  rw [step_decoded_eq hr hpc (ho ▸ opcodeOf_opcodeByte o) hne, outcomeOf, hf']
  exact congrArg _ (completed_handlerState _ s)

theorem after_ready {s : State} (hr : s.ready = true) {i : Instr} (hne : i ≠ .hlt) :
    (s.after i).ready = true := by
  obtain ⟨hh, hs, -⟩ := (ready_iff s).1 hr
  rw [ready_iff]
  refine ⟨?_, ?_, nofun⟩
  · simp [State.after, completed_halted, hne, hh]
  · simp [State.after, hs]

/-! ### Push and pop as inverses -/

/-- The increment after a pop undoes the decrement before a push. -/
theorem sameRegs_incSp {s t : State} (h : SameRegs s.decSp t) (hsp : 1 ≤ s.sp.toNat) :
    SameRegs s t.incSp := by
  intro q
  rw [reg_incSp]
  split
  · subst q
    have ht : t.sp.toNat + 1 = s.sp.toNat := by
      rw [sp_eq, h 7, ← sp_eq, sp_decSp_toNat]
      omega
    rw [ht, wrap8_toNat, sp_eq]
  · rw [h q, reg_decSp_of_ne ‹_›]

/-- Loading a register with the value it holds changes no register. -/
theorem reg_setReg_self {s : State} {r : RegIdx} {v : Byte} (h : v = s.reg r) (q : RegIdx) :
    (s.setReg r v.toNat).reg q = s.reg q := by
  rw [reg_setReg, wrap8_toNat]
  split
  · subst q
    exact h
  · rfl

/-- A byte that a push did not write is the same at the same address, wherever `pc` has moved. -/
theorem byteAt_of_sameMemoryBut {s t : State} {at_ j k : Nat} (h : SameMemoryBut at_ s t)
    (hpc : t.pc.toNat + j = s.pc.toNat + k) (hne : at_ ≠ s.pc.toNat + k) :
    t.byteAt j = s.byteAt k := by
  rw [State.byteAt, State.byteAt, hpc]
  exact h _ hne.symm

/-- What a PUSH of `R[r]` leaves, however it is run. -/
structure Pushed (r : RegIdx) (s t : State) : Prop where
  regs : SameRegs s.decSp t
  mem_wf : Memory.wf t.mem = true
  cell : Memory.read t.mem s.decSp.sp.toNat = s.decSp.reg r
  mem : SameMemoryBut s.decSp.sp.toNat s t

theorem Pushed.sp_toNat {r : RegIdx} {s t : State} (h : Pushed r s t) :
    t.sp.toNat = s.sp.toNat - 1 := by
  rw [sp_eq, h.regs 7, ← sp_eq, sp_decSp_toNat]

theorem pushed_completed {s : State} {a : Byte} {r : RegIdx} (ha : a.toNat = r.val)
    (hw : Memory.wf s.mem = true) : Pushed r s (completed (.push a) s) := by
  obtain ⟨-, -, hcell, hmem⟩ := pushed_effect hw (s.decSp.reg r).toNat
  rw [wrap8_toNat] at hcell
  rw [completed, operandReg_eq ha]
  exact ⟨fun _ => rfl, Memory.write_wf hw _ _, hcell, hmem⟩

/-- A step of PUSH completes where its operand is legal and SP is not 0. -/
theorem step_push {s : State} {r : RegIdx} (hw : Memory.wf s.mem = true) (hr : s.ready = true)
    (hpc : s.pc.toNat ≤ 253) (ho : s.byteAt 0 = opcodeByte .push) (hk : (s.byteAt 1).toNat = r.val)
    (hsp : s.sp ≠ 0#8) :
    ∃ t, step s = .next t ∧ Pushed r s t ∧ t.ready = true ∧ t.pc.toNat = s.pc.toNat + 2 ∧
      t.fl = s.fl ∧ t.out = s.out := by
  have hf : handlerFault (.push (s.byteAt 1)) s = none :=
    handlerFault_eq_none_iff.2 ⟨fun _ => legal_of_reg hk, nofun, fun _ => hsp, nofun⟩
  obtain ⟨hregs, hwf, hcell, hmem⟩ := pushed_completed hk hw
  exact ⟨_, step_after .push hr hpc ho (by decide) hf, ⟨hregs, hwf, hcell, hmem⟩,
    after_ready hr nofun, advance_pc_of_le rfl hpc (by decide), rfl, rfl⟩

/-- A step of POP of the register whose value stands at SP moves SP and `pc` only. -/
theorem step_pop_same {s : State} {r : RegIdx} (hr : s.ready = true) (hpc : s.pc.toNat ≤ 253)
    (ho : s.byteAt 0 = opcodeByte .pop) (hk : (s.byteAt 1).toNat = r.val)
    (hsp : s.sp.toNat < 0xF4) (hv : Memory.read s.mem s.sp.toNat = s.reg r) :
    ∃ t, step s = .next t ∧ SameRegs s.incSp t ∧ t.fault = none ∧ t.pc.toNat = s.pc.toNat + 2 ∧
      t.mem = s.mem ∧ t.fl = s.fl ∧ t.out = s.out := by
  obtain ⟨-, hs, -⟩ := (ready_iff s).1 hr
  have hf : handlerFault (.pop (s.byteAt 1)) s = none :=
    handlerFault_eq_none_iff.2 ⟨fun _ => legal_of_reg hk, nofun, nofun, fun _ => hsp⟩
  refine ⟨_, step_after .pop hr hpc ho (by decide) hf, fun q => ?_, hs,
    advance_pc_of_le rfl hpc (by decide), rfl, rfl, rfl⟩
  have hsame := reg_setReg_self hv
  have hq : (s.after (.pop (s.byteAt 1))).reg q =
      (s.setReg r (Memory.read s.mem s.sp.toNat).toNat).incSp.reg q := by
    rw [State.after, completed, operandReg_eq hk]
    rfl
  refine hq.trans ?_
  rw [reg_incSp, reg_incSp, sp_eq, hsame, hsame, sp_eq]

/-! ### Call and return -/

/-- A step of CALL leaves the return address where a push leaves its value. -/
theorem step_call {s : State} {r : RegIdx} (hw : Memory.wf s.mem = true) (hr : s.ready = true)
    (hpc : s.pc.toNat ≤ 253) (ho : s.byteAt 0 = opcodeByte .call) (hk : (s.byteAt 1).toNat = r.val)
    (hsp : s.sp ≠ 0#8) :
    ∃ t, step s = .next t ∧ SameRegs s.decSp t ∧ t.ready = true ∧
      t.pc.toNat = (s.decSp.reg r).toNat ∧
      (Memory.read t.mem s.decSp.sp.toNat).toNat = s.pc.toNat + 2 ∧
      SameMemoryBut s.decSp.sp.toNat s t ∧ t.fl = s.fl ∧ t.out = s.out := by
  have hf : handlerFault (.call (s.byteAt 1)) s = none :=
    handlerFault_eq_none_iff.2 ⟨fun _ => legal_of_reg hk, nofun, fun _ => hsp, nofun⟩
  obtain ⟨-, -, hcell, hmem⟩ := pushed_effect hw (s.pc.toNat + 2)
  refine ⟨_, step_after .call hr hpc ho (by decide) hf, fun _ => rfl, after_ready hr nofun, ?_, ?_,
    hmem, rfl, rfl⟩
  · rw [← operandReg_eq hk]
    exact setPc_pc_toNat (pushed s (s.pc.toNat + 2)) _
  · refine (congrArg BitVec.toNat hcell).trans ?_
    rw [toNat_wrap8]
    omega

theorem step_ret {s : State} (hr : s.ready = true) (hpc : s.pc.toNat ≤ 253)
    (ho : s.byteAt 0 = opcodeByte .ret) (hsp : s.sp.toNat < 0xF4) :
    ∃ t, step s = .next t ∧ SameRegs s.incSp t ∧ t.fault = none ∧
      t.pc.toNat = (Memory.read s.mem s.sp.toNat).toNat ∧ t.mem = s.mem ∧ t.fl = s.fl ∧
      t.out = s.out := by
  obtain ⟨-, hs, -⟩ := (ready_iff s).1 hr
  have hf : handlerFault .ret s = none :=
    handlerFault_eq_none_iff.2 ⟨nofun, nofun, nofun, fun _ => hsp⟩
  exact ⟨_, step_after .ret hr hpc ho (by decide) hf, fun _ => rfl, hs, setPc_pc_toNat s _, rfl,
    rfl, rfl⟩

/-! ### Handlers in sequence -/

theorem exec_push_room {s : State} {a : Byte} {r : RegIdx} (ha : a.toNat = r.val)
    (hsp : s.sp ≠ 0#8) : exec (.push a) s = .next (completed (.push a) s) :=
  exec_legal (fun _ => legal_of_reg ha) nofun (fun _ => hsp) nofun

theorem exec_push {s : State} {a : Byte} {r : RegIdx} (ha : a.toNat = r.val)
    (hw : Memory.wf s.mem = true) (hsp : s.sp ≠ 0#8) :
    ∃ t, exec (.push a) s = .next t ∧ Pushed r s t ∧ t.fault = s.fault :=
  ⟨_, exec_push_room ha hsp, pushed_completed ha hw, rfl⟩

theorem exec_pop {s : State} {a : Byte} {r : RegIdx} (ha : a.toNat = r.val) (h7 : r ≠ 7)
    (hsp : s.sp.toNat < 0xF4) :
    ∃ t, exec (.pop a) s = .next t ∧ t.reg r = Memory.read s.mem s.sp.toNat ∧
      (∀ q : RegIdx, q ≠ r → q ≠ 7 → t.reg q = s.reg q) ∧ t.sp.toNat = s.sp.toNat + 1 ∧
      t.mem = s.mem ∧ t.fault = s.fault := by
  refine ⟨_, exec_legal (fun _ => legal_of_reg ha) nofun nofun (fun _ => hsp), ?_⟩
  rw [completed, operandReg_eq ha]
  refine ⟨by simp [h7], fun q hq hq7 => by simp [hq7, hq.symm], ?_, rfl, rfl⟩
  simp only [sp_advance, sp_incSp, sp_setReg, if_neg h7, toNat_wrap8]
  omega

/-! ### A jump to itself -/

/-- The core may step and stands at a JMP to its own address. -/
structure JumpsToItself (r : RegIdx) (s : State) : Prop where
  ready : s.ready = true
  pc_le : s.pc.toNat ≤ 253
  opcode : s.byteAt 0 = opcodeByte .jmp
  operand : (s.byteAt 1).toNat = r.val
  target : (s.reg r).toNat = s.pc.toNat

theorem jumpsToItself_stepState {r : RegIdx} {s : State} (h : JumpsToItself r s) :
    JumpsToItself r (stepState s) := by
  have hf : handlerFault (.jmp (s.byteAt 1)) s = none :=
    handlerFault_eq_none_iff.2 ⟨fun _ => legal_of_reg h.operand, nofun, nofun, nofun⟩
  have hpc : (s.after (.jmp (s.byteAt 1))).pc = s.pc := by
    apply BitVec.eq_of_toNat_eq
    rw [← h.target, ← operandReg_eq h.operand]
    exact setPc_pc_toNat s _
  have hbyte (k : Nat) : (s.after (.jmp (s.byteAt 1))).byteAt k = s.byteAt k := by
    rw [State.byteAt, hpc]
    rfl
  rw [stepState_of_step (step_after .jmp h.ready h.pc_le h.opcode (by decide) hf)]
  exact ⟨after_ready h.ready nofun, (congrArg BitVec.toNat hpc).le.trans h.pc_le,
    (hbyte 0).trans h.opcode, (congrArg _ (hbyte 1)).trans h.operand,
    h.target.trans (congrArg BitVec.toNat hpc).symm⟩

theorem jumpsToItself_runFor {r : RegIdx} {s : State} (h : JumpsToItself r s) (n : Nat) :
    JumpsToItself r (runFor n s) := by
  induction n generalizing s with
  | zero => exact h
  | succ n ih => exact ih (jumpsToItself_stepState h)

theorem ended_of_ready {s : State} (h : s.ready = true) : s.ended = false := by
  obtain ⟨hh, hs, -⟩ := (ready_iff s).1 h
  simp [State.ended, hh, hs]

/-! ### How much the stack holds -/

section PushTimes
variable {a : Byte} {r : RegIdx} (ha : a.toNat = r.val)
include ha

theorem pushTimes_succ {s : State} (hsp : s.sp ≠ 0#8) (n : Nat) :
    pushTimes a (n + 1) s = pushTimes a n (completed (.push a) s) := by
  rw [pushTimes, exec_push_room ha hsp]

theorem pushTimes_full {s : State} (hsp : s.sp = 0#8) :
    (pushTimes a 1 s).fault.map FaultRecord.kind = some (.outOfBounds .stackOverflow) := by
  rw [pushTimes, exec_overflow (i := .push a) (fun _ => legal_of_reg ha) rfl hsp]
  rfl

/-- As long as SP allows, each push lowers SP by one and raises no fault. -/
theorem pushTimes_room {s : State} {n : Nat} (hn : n ≤ s.sp.toNat) :
    (pushTimes a n s).fault = s.fault ∧ (pushTimes a n s).sp.toNat = s.sp.toNat - n := by
  induction n generalizing s with
  | zero => exact ⟨rfl, rfl⟩
  | succ n ih =>
    have hsp : s.sp ≠ 0#8 := fun e => by simp [e] at hn
    have hsp' : (completed (.push a) s).sp.toNat = s.sp.toNat - 1 := sp_decSp_toNat s
    obtain ⟨hf, hs⟩ := ih (s := completed (.push a) s) (by omega)
    rw [pushTimes_succ ha hsp, hf, hs, hsp', completed_fault]
    exact ⟨rfl, by omega⟩

theorem pushTimes_append (m : Nat) {s : State} {n : Nat} (hn : n ≤ s.sp.toNat) :
    pushTimes a (n + m) s = pushTimes a m (pushTimes a n s) := by
  induction n generalizing s with
  | zero => rw [Nat.zero_add, pushTimes]
  | succ n ih =>
    have hsp : s.sp ≠ 0#8 := fun e => by simp [e] at hn
    have hsp' : (completed (.push a) s).sp.toNat = s.sp.toNat - 1 := sp_decSp_toNat s
    rw [Nat.add_right_comm, pushTimes_succ ha hsp, pushTimes_succ ha hsp, ih (by omega)]

end PushTimes

/-! ### The statements -/

theorem sp_ne_zero {s : State} (h : 1 ≤ s.sp.toNat) : s.sp ≠ 0#8 := fun e => by simp [e] at h

/-- Settles O45: the POP finds its bytes unchanged and, at SP, the value its register now holds. -/
theorem pushThenPopRestores : Obligations.PushThenPopRestores := by
  intro s k hi hr hlo hhi hpc ho hk ho' hk' hne hne'
  obtain ⟨t, hst, hp, hrt, hpct, hfl, hout⟩ :=
    step_push hi.mem_wf hr (by omega) ho hk (sp_ne_zero hlo)
  have hspt := hp.sp_toNat
  have hcell : Memory.read t.mem t.sp.toNat = t.reg k := by
    rw [hspt, ← sp_decSp_toNat, hp.cell, hp.regs k]
  have hb0 : t.byteAt 0 = s.byteAt 2 := byteAt_of_sameMemoryBut hp.mem (by omega) hne
  have hb1 : t.byteAt 1 = s.byteAt 3 := byteAt_of_sameMemoryBut hp.mem (by omega) hne'
  obtain ⟨u, hsu, hregs, hfu, hpcu, hmem, hfl', hout'⟩ :=
    step_pop_same hrt (by omega) (hb0.trans ho') ((congrArg _ hb1).trans hk') (by omega) hcell
  have hback := sameRegs_incSp hp.regs hlo
  refine ⟨t, u, hst, hsu, hfu, fun q => (hregs q).trans (hback q), by omega, ?_, fun b hb => ?_,
    hfl'.trans hfl, hout'.trans hout⟩
  · rw [hmem, hp.cell]
  · rw [hmem]
    exact hp.mem b hb

/-- Settles O46: the RET finds its byte unchanged and the return address at SP. -/
theorem callThenRetReturns : Obligations.CallThenRetReturns := by
  intro s r hi hr hlo hhi hpc ho hk htgt hret hne
  obtain ⟨t, hst, hregs, hrt, hpct, haddr, hmem, hfl, hout⟩ :=
    step_call hi.mem_wf hr hpc ho hk (sp_ne_zero hlo)
  have hspt : t.sp.toNat = s.decSp.sp.toNat := congrArg BitVec.toNat (hregs 7)
  have hb0 : t.byteAt 0 = opcodeByte .ret := by
    rw [State.byteAt, hpct]
    exact (hmem _ hne.symm).trans hret
  have hsp := sp_decSp_toNat s
  obtain ⟨u, hsu, hregs', hfu, hpcu, hmem', hfl', hout'⟩ := step_ret hrt (by omega) hb0 (by omega)
  have hback (q : RegIdx) : u.reg q = s.reg q :=
    (hregs' q).trans (sameRegs_incSp hregs hlo q)
  refine ⟨t, u, hst, hsu, hfu, hpct, ?_, hback 7, hback, ?_, fun b hb => ?_, hfl'.trans hfl,
    hout'.trans hout⟩
  · rw [hpcu, hspt, haddr]
  · rw [hmem', haddr]
  · rw [hmem']
    exact hmem b hb

/-- Settles O47: the second push writes one cell below the first, and the pops read them back in turn. -/
theorem stackIsLastInFirstOut : Obligations.StackIsLastInFirstOut := by
  intro s a b c d ra rb rc rd ha hb hc hd ha7 hb7 hc7 hd7 hcd hw hlo hhi
  obtain ⟨s1, e1, hp1, hf1⟩ := exec_push ha hw (sp_ne_zero (by omega))
  have hsp1 := hp1.sp_toNat
  obtain ⟨s2, e2, hp2, hf2⟩ := exec_push hb hp1.mem_wf (sp_ne_zero (by omega))
  have hsp2 := hp2.sp_toNat
  obtain ⟨s3, e3, hc3, hkeep3, hsp3, hm3, hf3⟩ := exec_pop hc hc7 (s := s2) (by omega)
  obtain ⟨s4, e4, hd4, hkeep4, hsp4, hm4, hf4⟩ := exec_pop hd hd7 (s := s3) (by omega)
  have hsec : Memory.read s2.mem s2.sp.toNat = s.reg rb := by
    rw [hsp2, ← sp_decSp_toNat, hp2.cell, reg_decSp_of_ne hb7, hp1.regs, reg_decSp_of_ne hb7]
  have hfirst : Memory.read s3.mem s3.sp.toNat = s.reg ra := by
    have hne : s3.sp.toNat ≠ s1.decSp.sp.toNat := by
      rw [sp_decSp_toNat]
      omega
    have heq : s3.sp.toNat = s.decSp.sp.toNat := by
      rw [sp_decSp_toNat]
      omega
    rw [hm3, hp2.mem _ hne, heq, hp1.cell, reg_decSp_of_ne ha7]
  refine ⟨s1, s2, s3, s4, e1, e2, e3, e4, ?_, ?_, hd4.trans hfirst,
    BitVec.eq_of_toNat_eq (by omega)⟩
  · rw [hf4, hf3, hf2, hf1]
  · rw [hkeep4 rc hcd hc7, hc3, hsec]

/-- Settles O49: a JMP to itself stands at the same JMP after any number of steps. -/
theorem jumpToItselfRunsForever : Obligations.JumpToItselfRunsForever := by
  intro s r hr hpc ho hk ht n
  have hn := jumpsToItself_runFor ⟨hr, hpc, ho, hk, ht⟩ n
  exact ⟨ended_of_ready hn.ready, hn.ready⟩

/-- Settles O50: the next fetch reads the cell that the push wrote. -/
theorem fetchSeesAnEarlierPush : Obligations.FetchSeesAnEarlierPush := by
  intro s r hi hr hpc hsp ho hk hv hat
  obtain ⟨t, hst, hp, hrt, hpct, -, -⟩ := step_push hi.mem_wf hr hpc ho hk hsp
  obtain ⟨-, hs, -⟩ := (ready_iff t).1 hrt
  have hb0 : t.byteAt 0 = opcodeByte .hlt := by
    rw [State.byteAt, Nat.add_zero, hpct, ← hat, hp.cell, hv]
  exact ⟨t, _, hst, step_hlt hrt (by omega) hb0, by simp [State.succeeded, fetched, hs], hpct, hb0⟩

/-- Settles O51: SP counts the pushes down to 0, where the next one overflows. -/
theorem theStackHolds244Pushes : Obligations.TheStackHolds244Pushes := by
  intro s a r ha hsp hs
  have hsp' : s.sp.toNat = 244 := by rw [hsp]; rfl
  have hroom (n : Nat) (hn : n ≤ 244) := pushTimes_room ha (s := s) (n := n) (by omega)
  refine ⟨fun n hn => ?_, ?_⟩
  · rw [← hs, ← hsp']
    exact hroom n hn
  · rw [pushTimes_append ha 1 (n := 244) (by omega)]
    refine pushTimes_full ha (BitVec.eq_of_toNat_eq ?_)
    rw [(hroom 244 (by omega)).2, hsp']
    rfl

end Sys2Proof.Machine
end

section
/-! PROOFS. Reset, load and launch (10_state.md R40; 70_reset_and_hazards.md R190, R191, R201, R207), and
what the host reads: the fault record and the output (60_exceptions.md R161, R163;
41_load_and_output.md R117). -/

namespace Sys2Proof.Machine

/-! ### Reset and load -/

theorem resetWith_reg (g : Vector Byte 7) (k : Fin 7) :
    (State.resetWith g).reg ⟨k.val, by omega⟩ = g[k] :=
  Vector.getElem_push_lt k.isLt

/-- A state whose load failed is not ready. -/
theorem step_loadFailed (s : State) :
    step { s with loadPhase := .loadFailed } = .next { s with loadPhase := .loadFailed } :=
  step_not_ready (by simp [State.ready])

/-- A step that may begin ends the load window, whatever becomes of it (R201). -/
theorem step_ends_window {s t : State} (hr : s.ready = true) (h : step s = .next t) :
    t.loadPhase = .stepped := by
  rcases step_ready_outcome hr with ⟨_, _, _, e⟩ | ⟨_, _, _, _, _, _, e⟩ <;>
    obtain rfl := Host.Outcome.next.inj (e.symm.trans h)
  · rfl
  · simp [fetched]

/-- Settles O53: the reset state's fields are the table's. -/
theorem resetLeavesTheTableValues : Obligations.ResetLeavesTheTableValues :=
  fun g _ => ⟨rfl, resetWith_reg g, resetWith_sp g, rfl, rfl, rfl,
    fun _ ha => memRead_lt _ (Nat.lt_succ_of_le ha), rfl, rfl, rfl, rfl⟩

/-- Settles O55: the launch is a load into the empty memory of the reset state. -/
theorem launchStateHoldsTheProgram : Obligations.LaunchStateHoldsTheProgram := by
  intro g bytes hl
  refine ⟨fun i _ => read_launchState g hl i, ?_,
    hostLoad_keeps_coreInv (resetWith_coreInv g) bytes⟩
  rw [launchState_eq g hl]

/-- Settles O56: the window and the length decide what a load does; every step ends the window. -/
theorem loadIsPermittedOnlyBeforeTheFirstStep :
    Obligations.LoadIsPermittedOnlyBeforeTheFirstStep := by
  intro bytes s hw
  refine ⟨fun hp hl => ?_, fun hp hl => ?_, fun hp => hostLoad_refused hp bytes,
    fun t hr h => step_ends_window hr h⟩
  · rw [hostLoad_fits hp hl]
    exact ⟨rfl, rfl, fun i => by simpa using Memory.read_writeBytes bytes hw 0 i (by omega)⟩
  · rw [hostLoad_tooLong hp hl]
    exact ⟨rfl, step_loadFailed s⟩

/-! ### The decimal text of a byte -/

/-- The character of a decimal digit. -/
def digitChar (n : Nat) : Char := Char.ofNat (48 + n)

/-- Each digit's character is a digit, reads as its value, and is 0's for 0 only. -/
theorem digitChar_spec {n : Nat} (h : n < 10) :
    (digitChar n).isDigit = true ∧ (digitChar n).toNat - 48 = n ∧ (digitChar n = '0' ↔ n = 0) := by
  have hall : ∀ m : Fin 10, (digitChar m).isDigit = true ∧ (digitChar m).toNat - 48 = m.val ∧
      (digitChar m = '0' ↔ m.val = 0) := by decide
  exact hall ⟨n, h⟩

/-- The value that a decimal text reads as. -/
def readDecimal (text : List Char) : Nat := text.foldl (fun n c => 10 * n + (c.toNat - 48)) 0

/-- A list of decimal digits, shown and read again. -/
theorem readDecimal_digits (ds : List Nat) (h : ∀ d ∈ ds, d < 10) :
    readDecimal (ds.map digitChar) = ds.foldl (fun n d => 10 * n + d) 0 := by
  rw [readDecimal, List.foldl_map]
  refine List.foldl_ext _ _ _ fun n d hd => ?_
  rw [(digitChar_spec (h d hd)).2.1]

/-- The decimal digits of a byte's value, without leading zeros. -/
def decimalDigits (n : Nat) : List Nat :=
  if n < 10 then [n] else if n < 100 then [n / 10, n % 10] else [n / 100, n / 10 % 10, n % 10]

theorem renderValue_eq (v : Byte) : renderValue v = (decimalDigits v.toNat).map digitChar := by
  rw [decimalDigits, apply_ite (List.map _), apply_ite (List.map _)]
  rfl

theorem decimalDigits_lt {n : Nat} (hn : n < 256) : ∀ d ∈ decimalDigits n, d < 10 := by
  unfold decimalDigits
  split_ifs <;>
    simp only [List.mem_cons, List.not_mem_nil, or_false, forall_eq_or_imp, forall_eq] <;> omega

theorem decimalDigits_value (n : Nat) :
    (decimalDigits n).foldl (fun n d => 10 * n + d) 0 = n := by
  unfold decimalDigits
  split_ifs <;> simp only [List.foldl_cons, List.foldl_nil] <;> omega

theorem decimalDigits_head {n : Nat} (hn : n ≠ 0) : (decimalDigits n).head? ≠ some 0 := by
  unfold decimalDigits
  split_ifs <;> simp only [List.head?_cons, ne_eq, Option.some.injEq] <;> omega

/-- Settles O58: the text is that of the value's digits, the first of which is not 0 unless the value
is. -/
theorem outputIsShownInShortestDecimal : Obligations.OutputIsShownInShortestDecimal := by
  refine ⟨fun v => ?_, fun out v => List.map_append⟩
  have hlt := decimalDigits_lt v.isLt
  rw [renderValue_eq]
  refine ⟨?_, ?_, ?_, fun hv => ?_⟩
  · exact (readDecimal_digits _ hlt).trans (decimalDigits_value _)
  · rw [List.all_map, List.all_eq_true]
    exact fun d hd => (digitChar_spec (hlt d hd)).1
  · rintro rfl
    rfl
  · rw [List.head?_map]
    intro h
    obtain ⟨d, hd, h0⟩ := Option.map_eq_some_iff.1 h
    rw [(digitChar_spec (hlt d (List.mem_of_head? hd))).2.2] at h0
    exact decimalDigits_head (by simpa using BitVec.toNat_ne.1 hv) (h0 ▸ hd)

/-! ### The fault record as the host reads it -/

/-- The kind with the given codes (R161). -/
def kindOfCodes (code sub : BitVec 3) : FaultKind :=
  match code.toNat, sub.toNat with
  | 1, 1 => .outOfBounds .fetchOpcode
  | 1, 2 => .outOfBounds .fetchOperand
  | 1, 3 => .outOfBounds .stackOverflow
  | 1, 4 => .outOfBounds .stackUnderflow
  | 1, _ => .outOfBounds .dataAccess
  | 2, _ => .illegalInstruction
  | 3, _ => .invalidAluOperation
  | 4, _ => .invalidRegister
  | _, _ => .loadError

theorem kindOfCodes_code (k : FaultKind) : kindOfCodes k.code k.subCode = k := by
  cases k with
  | outOfBounds sub => cases sub <;> rfl
  | _ => rfl

/-- The operand with the given code (R163). -/
def operandOfCode (code : BitVec 2) : Option OperandPos :=
  match code.toNat with
  | 1 => some .operandA
  | 2 => some .operandB
  | _ => none

theorem operandOfCode_code (p : Option OperandPos) : operandOfCode (badOperandCode p) = p := by
  rcases p with _ | _ | _ <;> rfl

/-- The record that a raw record stands for: what the host reads loses nothing (R163). -/
def RawFaultRecord.record (r : RawFaultRecord) : FaultRecord where
  kind := kindOfCodes r.kind r.sub
  pc := r.pc
  ir := if r.irValid = 1#1 then some r.ir else none
  operands := if r.opsValid = 1#1 then some (r.operandA, r.operandB) else none
  addr := r.addr
  badOperand := operandOfCode r.badOperand

theorem record_raw (r : FaultRecord) : r.raw.record = r := by
  obtain ⟨kind, pc, ir, operands, addr, bad⟩ := r
  simp only [RawFaultRecord.record, FaultRecord.raw, kindOfCodes_code, operandOfCode_code]
  cases ir <;> cases operands <;> rfl

/-- Settles O59: the raw record's fields are the codes and the options of the record, and it can be read
back. -/
theorem hostReadsTheFaultInItsCodes : Obligations.HostReadsTheFaultInItsCodes := by
  refine ⟨fun ⟨kind, _, _, _, _, _⟩ => ?_, fun ⟨_, _, _, _, _, bad⟩ => ⟨rfl, rfl, ?_⟩,
    fun ⟨_, _, ir, _, _, _⟩ => ⟨?_, ?_⟩, fun ⟨_, _, _, operands, _, _⟩ => ⟨?_, ?_⟩,
    Function.LeftInverse.injective record_raw,
    fun s => ⟨coreView s, rfl, rfl, rfl, rfl, rfl, rfl, rfl, rfl, rfl⟩⟩
  · cases kind with
    | outOfBounds sub => cases sub <;> rfl
    | _ => rfl
  · rcases bad with _ | _ | _ <;> rfl
  · rintro rfl
    exact ⟨rfl, rfl⟩
  · rintro b rfl
    exact ⟨rfl, rfl⟩
  · rintro rfl
    exact ⟨rfl, rfl, rfl⟩
  · rintro a b rfl
    exact ⟨rfl, rfl, rfl⟩

end Sys2Proof.Machine
end

section
/-! PROOFS. The program text (70_reset_and_hazards.md R205, R201; log 14): what each line stands for, that
splitting at line ends loses nothing, and what loading a text does. -/

namespace Sys2Proof.Machine

/-! ### One line -/

/-- What follows a token is empty or begins with white space. -/
theorem afterToken_head {line : List Char} {c : Char} (h : (afterToken line).head? = some c) :
    isBlankChar c = true := by
  have := List.head?_dropWhile_not (fun c => !isBlankChar c) (line.dropWhile isBlankChar)
  rw [← afterToken, h] at this
  simpa using this

/-- A line with the digits of a byte after white space is no blank or comment line. -/
theorem blankOrComment_token {before : List Char} (hb : ∀ c ∈ before, isBlankChar c = true)
    (b : Byte) (rest : List Char) : blankOrComment (before ++ binaryLine b ++ rest) = false := by
  obtain ⟨c, cs, hc⟩ := binaryLine_cons b
  obtain ⟨hblank, hhash⟩ := binaryLine_char (b := b) (c := c) (by simp [hc])
  rw [blankOrComment, List.append_assoc, dropBlank_append hb, hc]
  simp [hblank, hhash]

/-- A line is read as no byte exactly when it is white space and a comment. -/
theorem parseLine_none_iff (line : List Char) :
    parseLine line = .ok none ↔ LineMeans line none := by
  rw [← blankOrComment_iff, parseLine]
  split
  · simp [*]
  · split
    · split <;> simp [*]
    · simp [*]

/-- A line is read as a byte exactly when its token is and only white space and a comment follow. -/
theorem parseLine_some_iff_token (line : List Char) (b : Byte) :
    parseLine line = .ok (some b) ↔
      blankOrComment line = false ∧ leadingToken line = binaryLine b ∧
        blankOrComment (afterToken line) = true := by
  rw [← binaryByte_iff, parseLine]
  split
  · simp [*]
  · split
    · split <;> simp [*]
    · simp [*]

theorem lineMeans_of_token {line : List Char} {b : Byte} (ht : leadingToken line = binaryLine b)
    (ha : blankOrComment (afterToken line) = true) : LineMeans line (some b) := by
  obtain ⟨before, hb, hl⟩ := leadingToken_split line
  obtain ⟨after, comment, hrest, hafter, hc⟩ := (blankOrComment_iff _).1 ha
  refine ⟨before, after, comment, ?_, hb, hafter, hc.imp_right fun hhash => ⟨hhash, ?_⟩⟩
  · rw [ht, hrest] at hl
    rw [List.append_assoc _ after]
    exact hl
  · rintro rfl
    have hblank := afterToken_head (hrest ▸ hhash : (afterToken line).head? = some '#')
    exact absurd hblank (by decide)

theorem token_of_lineMeans {line : List Char} {b : Byte} (h : LineMeans line (some b)) :
    blankOrComment line = false ∧ leadingToken line = binaryLine b ∧
      blankOrComment (afterToken line) = true := by
  obtain ⟨before, after, comment, rfl, hb, hafter, hc⟩ := h
  rw [List.append_assoc]
  have hhead : ∀ c, (after ++ comment).head? = some c → isBlankChar c = true := by
    intro c hh
    cases after with
    | nil =>
      rcases hc with rfl | ⟨-, hne⟩
      · cases hh
      · exact absurd rfl hne
    | cons d ds =>
      obtain rfl : d = c := by simpa using hh
      exact hafter d (by simp)
  have hne : binaryLine b ≠ [] := by
    obtain ⟨c, cs, e⟩ := binaryLine_cons b
    simp [e]
  obtain ⟨htok, haft⟩ := leadingToken_eq hb (fun c hc' => (binaryLine_char hc').1) hne hhead
  refine ⟨blankOrComment_token hb b _, htok, ?_⟩
  rw [haft]
  exact (blankOrComment_iff _).2 ⟨after, comment, rfl, hafter, hc.imp_right And.left⟩

/-- Each line is read as what it stands for, and as nothing else. -/
theorem parseLine_iff (line : List Char) (meaning : Option Byte) :
    parseLine line = .ok meaning ↔ LineMeans line meaning := by
  cases meaning with
  | none => exact parseLine_none_iff line
  | some b =>
    rw [parseLine_some_iff_token]
    exact ⟨fun ⟨_, ht, ha⟩ => lineMeans_of_token ht ha, token_of_lineMeans⟩

theorem parseLine_malformed {line : List Char} (h : LineMalformed line) :
    parseLine line = .error .loadError := by
  cases hp : parseLine line with
  | error k => rw [parseLine_error hp]
  | ok meaning => exact absurd ((parseLine_iff line meaning).1 hp) (h meaning)

/-! ### Splitting and joining -/

/-- One more character in front goes to the first line, unless it ends one. -/
theorem splitLines_cons {c : Char} (h : c ≠ '\n') (cs : List Char) :
    ∃ line lines, splitLines cs = line :: lines ∧
      splitLines (c :: cs) = (c :: line) :: lines := by
  obtain ⟨line, lines, e⟩ := List.exists_cons_of_ne_nil (splitLines_ne_nil cs)
  exact ⟨line, lines, e, by simp [splitLines, h, e]⟩

theorem splitLines_newline (cs : List Char) : splitLines ('\n' :: cs) = [] :: splitLines cs := by
  simp [splitLines]

/-- Joining is linear in the first character. -/
theorem intercalate_cons_head (sep : List Char) (c : Char) (line : List Char)
    (lines : List (List Char)) :
    List.intercalate sep ((c :: line) :: lines) = c :: List.intercalate sep (line :: lines) := by
  cases lines with
  | nil => simp
  | cons l ls => simp

theorem intercalate_splitLines (text : List Char) :
    List.intercalate ['\n'] (splitLines text) = text := by
  induction text with
  | nil => rfl
  | cons c cs ih =>
    by_cases hc : c = '\n'
    · rw [hc, splitLines_newline, List.intercalate_cons_of_ne_nil (splitLines_ne_nil cs), ih]
      rfl
    · obtain ⟨line, lines, e, e'⟩ := splitLines_cons hc cs
      rw [e', intercalate_cons_head, ← e, ih]

theorem newline_notMem_splitLines (text : List Char) : ∀ line ∈ splitLines text, '\n' ∉ line := by
  induction text with
  | nil => simp [splitLines]
  | cons c cs ih =>
    by_cases hc : c = '\n'
    · rw [hc, splitLines_newline]
      simpa using ih
    · obtain ⟨line, lines, e, e'⟩ := splitLines_cons hc cs
      rw [e, List.forall_mem_cons] at ih
      rw [e', List.forall_mem_cons]
      exact ⟨by simpa [Ne.symm hc] using ih.1, ih.2⟩

/-- Lines without line ends that are joined split into themselves. -/
theorem splitLines_intercalate {lines : List (List Char)} (hne : lines ≠ [])
    (h : ∀ line ∈ lines, '\n' ∉ line) : splitLines (List.intercalate ['\n'] lines) = lines := by
  induction lines with
  | nil => exact absurd rfl hne
  | cons line lines ih =>
    obtain ⟨hl, hls⟩ := List.forall_mem_cons.1 h
    cases lines with
    | nil => rw [List.intercalate_singleton, splitLines_line hl]
    | cons l ls =>
      rw [List.intercalate_cons_cons, List.append_assoc, List.singleton_append,
        splitLines_append hl, ih (List.cons_ne_nil l ls) hls]

/-! ### All lines -/

/-- Lines that stand for bytes or for none are read as those bytes, in order. -/
theorem parseLines_rows {rows : List (List Char × Option Byte)}
    (h : ∀ row ∈ rows, LineMeans row.1 row.2) :
    parseLines (rows.map Prod.fst) = .ok (rows.filterMap Prod.snd) := by
  induction rows with
  | nil => rfl
  | cons row rows ih =>
    obtain ⟨hrow, hrows⟩ := List.forall_mem_cons.1 h
    obtain ⟨line, meaning⟩ := row
    rw [List.map_cons, parseLines_cons, (parseLine_iff line meaning).2 hrow, ih hrows]
    cases meaning <;> rfl

/-- The text of such lines is read as their bytes; a text of no lines has one line, which is blank. -/
theorem parseLines_text {rows : List (List Char × Option Byte)}
    (h : ∀ row ∈ rows, LineMeans row.1 row.2 ∧ '\n' ∉ row.1) :
    parseLines (splitLines (List.intercalate ['\n'] (rows.map Prod.fst))) =
      .ok (rows.filterMap Prod.snd) := by
  by_cases hne : rows = []
  · subst hne
    rfl
  · have hlines : ∀ line ∈ rows.map Prod.fst, '\n' ∉ line :=
      List.forall_mem_map.2 fun row hrow => (h row hrow).2
    rw [splitLines_intercalate (by simpa using hne) hlines]
    exact parseLines_rows fun row hrow => (h row hrow).1

theorem parseLines_malformed {lines : List (List Char)} (h : ∃ line ∈ lines, LineMalformed line) :
    ∃ k, parseLines lines = .error k := by
  induction lines with
  | nil =>
    obtain ⟨_, hmem, _⟩ := h
    cases hmem
  | cons line lines ih =>
    rw [parseLines_cons]
    rcases (List.exists_mem_cons_iff _ _ _).1 h with hl | hls
    · rw [parseLine_malformed hl]
      exact ⟨_, rfl⟩
    · obtain ⟨k, hk⟩ := ih hls
      rw [hk]
      rcases parseLine line with k' | _ | b <;> exact ⟨_, rfl⟩

/-! ### The statements -/

/-- Settles O57: the lines of the joined text are the rows', and each is read as its meaning. -/
theorem programTextLoadsItsBytes : Obligations.ProgramTextLoadsItsBytes := by
  refine ⟨parseLine_iff, fun text => ⟨intercalate_splitLines text, newline_notMem_splitLines text⟩,
    fun rows h => ?_⟩
  have hload := hostLoadText_ok (parseLines_text h)
  refine ⟨hload, fun g hl => ?_⟩
  rw [hload]
  exact ⟨by rw [hostLoad_fits rfl hl], read_launchState g hl⟩

/-- Settles O60: one malformed line fails the whole text, and a failed load is never ready. -/
theorem malformedProgramTextBarsEveryStep : Obligations.MalformedProgramTextBarsEveryStep := by
  refine ⟨fun text s h => ?_, fun rows s h hl hp => ?_⟩
  · obtain ⟨k, hk⟩ := parseLines_malformed h
    rw [hostLoadText_error hk]
    refine ⟨fun hp => ?_, fun hp => if_neg hp⟩
    rw [if_pos hp]
    exact ⟨rfl, runFor_of_step_self (step_loadFailed s)⟩
  · rw [hostLoadText_ok (parseLines_text h), hostLoad_tooLong hp hl]
    exact ⟨rfl, runFor_of_step_self (step_loadFailed s)⟩

end Sys2Proof.Machine
end
